-- ==== Sys2Proof/Word.lean ====
section
/-! DEFINITION. The Word of the machine (spec/00_scope.md R5, R7) and the byte that the host's memory cells hold. -/

namespace Sys2Proof

/-- A Word: 16 bits, bit 15 the most significant (R5, R7). -/
abbrev Word := BitVec 16

/-- The unit of a `Host.Cell`; the hardware itself has no byte access (R30, R32). -/
abbrev Byte := BitVec 8

end Sys2Proof
end

