-- ==== Sys2Proof/Syntax.lean ====
section
/-! DEFINITION. The instructions: the enumerations of spec/30_encoding.md (R53, R56, R57, R61), the decoded record
of R60, and `Instr`, the 58 forms of spec/opcode_table.json, one constructor a row. -/

namespace Sys2Proof

/-- A general register `R0` .. `R7` (spec/10_state.md R10); the value of a 3-bit register field. -/
inductive Reg where
  | r0 | r1 | r2 | r3 | r4 | r5 | r6 | r7
deriving DecidableEq, Repr

/-- The 30 mnemonics (R56), "a closed enumeration of opcodes". -/
inductive Op where
  | halt | add | sub | mul | div | mod | and | or | xor | shl | shr
  | cmp | mov | ld | st | push | pop | ssp | gsp | jmp | jz | jnz
  | jc | jnc | js | jns | jo | jno | call | ret
deriving DecidableEq, Repr

/-- The five addressing modes (R53): immediate, register, register-indirect, memory-direct, stack-relative. -/
inductive Mode where
  | imm | reg | rind | mdir | srel
deriving DecidableEq, Repr

/-- The operand signatures of R57. -/
inductive Shape where
  | ds | ld | st | s | d | n
deriving DecidableEq, Repr

/-- The decoded representation of R60. A value need not be well-formed: see `Instruction.wf`. -/
structure Instruction where
  op   : Op
  mode : Mode
  rd   : Reg
  rs   : Reg
  ext  : Option Word
deriving DecidableEq, Repr

/-- The operand kinds of R61. -/
inductive Operand where
  /-- `Reg r`, written `Rr`. -/
  | reg (r : Reg)
  /-- `Imm v`. -/
  | imm (v : Word)
  /-- `IndReg r`, written `[Rr]`. -/
  | indReg (r : Reg)
  /-- `Direct a`, written `[a]`. -/
  | direct (a : Word)
  /-- `StackRel o`, written `[SP+o]`. -/
  | stackRel (o : Word)
deriving DecidableEq, Repr

/-- The forms: one constructor per row of spec/opcode_table.json, operands in assembly order (R57, R61). A value of
this type holds exactly the fields its form uses, so every value is a well-formed instruction. -/
inductive Instr where
  /-- `HALT` (R132). -/
  | halt
  /-- `ADD Rd, imm` (R82). -/
  | addImm (rd : Reg) (imm : Word)
  /-- `ADD Rd, Rs` (R82). -/
  | addReg (rd : Reg) (rs : Reg)
  /-- `SUB Rd, imm` (R83). -/
  | subImm (rd : Reg) (imm : Word)
  /-- `SUB Rd, Rs` (R83). -/
  | subReg (rd : Reg) (rs : Reg)
  /-- `MUL Rd, imm` (R84). -/
  | mulImm (rd : Reg) (imm : Word)
  /-- `MUL Rd, Rs` (R84). -/
  | mulReg (rd : Reg) (rs : Reg)
  /-- `DIV Rd, imm` (R85). -/
  | divImm (rd : Reg) (imm : Word)
  /-- `DIV Rd, Rs` (R85). -/
  | divReg (rd : Reg) (rs : Reg)
  /-- `MOD Rd, imm` (R86). -/
  | modImm (rd : Reg) (imm : Word)
  /-- `MOD Rd, Rs` (R86). -/
  | modReg (rd : Reg) (rs : Reg)
  /-- `AND Rd, imm` (R87). -/
  | andImm (rd : Reg) (imm : Word)
  /-- `AND Rd, Rs` (R87). -/
  | andReg (rd : Reg) (rs : Reg)
  /-- `OR Rd, imm` (R88). -/
  | orImm (rd : Reg) (imm : Word)
  /-- `OR Rd, Rs` (R88). -/
  | orReg (rd : Reg) (rs : Reg)
  /-- `XOR Rd, imm` (R89). -/
  | xorImm (rd : Reg) (imm : Word)
  /-- `XOR Rd, Rs` (R89). -/
  | xorReg (rd : Reg) (rs : Reg)
  /-- `SHL Rd, imm` (R90). -/
  | shlImm (rd : Reg) (imm : Word)
  /-- `SHL Rd, Rs` (R90). -/
  | shlReg (rd : Reg) (rs : Reg)
  /-- `SHR Rd, imm` (R91). -/
  | shrImm (rd : Reg) (imm : Word)
  /-- `SHR Rd, Rs` (R91). -/
  | shrReg (rd : Reg) (rs : Reg)
  /-- `CMP Rd, imm` (R92). -/
  | cmpImm (rd : Reg) (imm : Word)
  /-- `CMP Rd, Rs` (R92). -/
  | cmpReg (rd : Reg) (rs : Reg)
  /-- `MOV Rd, imm` (R101). -/
  | movImm (rd : Reg) (imm : Word)
  /-- `MOV Rd, Rs` (R101). -/
  | movReg (rd : Reg) (rs : Reg)
  /-- `LD Rd, [Rs]` (R102). -/
  | ldInd (rd : Reg) (rs : Reg)
  /-- `LD Rd, [addr]` (R102). -/
  | ldDir (rd : Reg) (addr : Word)
  /-- `LD Rd, [SP+off]` (R102). -/
  | ldSp (rd : Reg) (off : Word)
  /-- `ST [Rd], Rs` (R103). -/
  | stInd (rd : Reg) (rs : Reg)
  /-- `ST [addr], Rs` (R103). -/
  | stDir (addr : Word) (rs : Reg)
  /-- `ST [SP+off], Rs` (R103). -/
  | stSp (off : Word) (rs : Reg)
  /-- `PUSH imm` (R113). -/
  | pushImm (imm : Word)
  /-- `PUSH Rs` (R113). -/
  | pushReg (rs : Reg)
  /-- `POP Rd` (R114). -/
  | pop (rd : Reg)
  /-- `SSP imm` (R115). -/
  | sspImm (imm : Word)
  /-- `SSP Rs` (R115). -/
  | sspReg (rs : Reg)
  /-- `GSP Rd` (R116). -/
  | gsp (rd : Reg)
  /-- `JMP imm` (R121). -/
  | jmpImm (imm : Word)
  /-- `JMP Rs` (R121). -/
  | jmpReg (rs : Reg)
  /-- `JZ imm` (R122). -/
  | jzImm (imm : Word)
  /-- `JZ Rs` (R122). -/
  | jzReg (rs : Reg)
  /-- `JNZ imm` (R123). -/
  | jnzImm (imm : Word)
  /-- `JNZ Rs` (R123). -/
  | jnzReg (rs : Reg)
  /-- `JC imm` (R124). -/
  | jcImm (imm : Word)
  /-- `JC Rs` (R124). -/
  | jcReg (rs : Reg)
  /-- `JNC imm` (R125). -/
  | jncImm (imm : Word)
  /-- `JNC Rs` (R125). -/
  | jncReg (rs : Reg)
  /-- `JS imm` (R126). -/
  | jsImm (imm : Word)
  /-- `JS Rs` (R126). -/
  | jsReg (rs : Reg)
  /-- `JNS imm` (R127). -/
  | jnsImm (imm : Word)
  /-- `JNS Rs` (R127). -/
  | jnsReg (rs : Reg)
  /-- `JO imm` (R128). -/
  | joImm (imm : Word)
  /-- `JO Rs` (R128). -/
  | joReg (rs : Reg)
  /-- `JNO imm` (R129). -/
  | jnoImm (imm : Word)
  /-- `JNO Rs` (R129). -/
  | jnoReg (rs : Reg)
  /-- `CALL imm` (R130). -/
  | callImm (imm : Word)
  /-- `CALL Rs` (R130). -/
  | callReg (rs : Reg)
  /-- `RET` (R131). -/
  | ret
deriving DecidableEq, Repr

end Sys2Proof
end

