-- ==== Sys2Proof/WellFormed.lean ====
section
/-! DEFINITION. `WF(i)` of spec/30_encoding.md R60: which decoded records are instructions. The decoder keeps a table of
its own (Decode.lean), so that "decode only ever returns well-formed instructions" is a theorem and not a definition. -/

namespace Sys2Proof

/-- The shape of each opcode (R56, column "shape"). -/
def Op.shape : Op → Shape
  | .halt | .ret => .n
  | .add | .sub | .mul | .div | .mod | .and | .or | .xor | .shl | .shr | .cmp | .mov => .ds
  | .ld => .ld
  | .st => .st
  | .push | .ssp | .jmp | .jz | .jnz | .jc | .jnc | .js | .jns | .jo | .jno | .call => .s
  | .pop | .gsp => .d

/-- `WF(i)` (R60): the mode is allowed for the opcode's shape (R57), each register field the form does not use is 0,
and `ext` is present exactly when the form has a trailing Word. -/
def Instruction.wf (x : Instruction) : Bool :=
  match x.op.shape, x.mode with
  | .ds, .imm | .ld, .mdir | .ld, .srel => x.rs == .r0 && x.ext.isSome
  | .ds, .reg | .ld, .rind | .st, .rind => x.ext.isNone
  | .st, .mdir | .st, .srel             => x.rd == .r0 && x.ext.isSome
  | .s, .imm                            => x.rd == .r0 && x.rs == .r0 && x.ext.isSome
  | .s, .reg                            => x.rd == .r0 && x.ext.isNone
  | .d, .reg                            => x.rs == .r0 && x.ext.isNone
  | .n, .reg                            => x.rd == .r0 && x.rs == .r0 && x.ext.isNone
  | _, _                                => false

end Sys2Proof
end

