-- ==== Sys2Proof/Decode.lean ====
section
/-! DEFINITION. The codec of spec/30_encoding.md: the fields of the first Word, the opcode and mode maps, `decode` (R63),
total on any Words and rejecting by name, and after it `encode` (R67). -/

namespace Sys2Proof

/-! ### The first Word (R51) -/

/-- `opcode = w[15:11]`. -/
def opcodeField (w : Word) : BitVec 5 := w.extractLsb' 11 5
/-- `mode = w[10:8]`. -/
def modeField (w : Word) : BitVec 3 := w.extractLsb' 8 3
/-- `rd = w[7:5]`. -/
def rdField (w : Word) : BitVec 3 := w.extractLsb' 5 3
/-- `rs = w[4:2]`. -/
def rsField (w : Word) : BitVec 3 := w.extractLsb' 2 3
/-- `zero = w[1:0]`, reserved (R59). -/
def zeroField (w : Word) : BitVec 2 := w.extractLsb' 0 2

/-- `w = (opcode << 11) | (mode << 8) | (rd << 5) | (rs << 2)` (R51). -/
def firstWord (opcode : BitVec 5) (mode rd rs : BitVec 3) : Word :=
  (opcode.setWidth 16 <<< 11) ||| (mode.setWidth 16 <<< 8) ||| (rd.setWidth 16 <<< 5) ||| (rs.setWidth 16 <<< 2)

/-- The register a 3-bit field names: "every value of a register field names a register" (spec/10_state.md R10). -/
def Reg.ofField (b : BitVec 3) : Reg :=
  match b.toNat with
  | 0 => .r0 | 1 => .r1 | 2 => .r2 | 3 => .r3 | 4 => .r4 | 5 => .r5 | 6 => .r6 | _ => .r7

/-- The index of a register, `0 .. 7`. -/
def Reg.field : Reg → BitVec 3
  | .r0 => 0 | .r1 => 1 | .r2 => 2 | .r3 => 3 | .r4 => 4 | .r5 => 5 | .r6 => 6 | .r7 => 7

/-- The mode codes (R53); 5, 6 and 7 are no mode. -/
def Mode.ofField (b : BitVec 3) : Option Mode :=
  match b.toNat with
  | 0 => some .imm | 1 => some .reg | 2 => some .rind | 3 => some .mdir | 4 => some .srel | _ => none

def Mode.field : Mode → BitVec 3
  | .imm => 0 | .reg => 1 | .rind => 2 | .mdir => 3 | .srel => 4

/-- The length rule (R54): a trailing Word iff the mode is `imm`, `mdir` or `srel`. -/
def Mode.hasExt : Mode → Bool
  | .imm | .mdir | .srel => true
  | .reg | .rind => false

/-- The opcode map (R56); 0 and 31 are no instruction (R64). -/
def Op.ofField (b : BitVec 5) : Option Op :=
  match b.toNat with
  | 1 => some .halt | 2 => some .add | 3 => some .sub | 4 => some .mul | 5 => some .div
  | 6 => some .mod | 7 => some .and | 8 => some .or | 9 => some .xor | 10 => some .shl
  | 11 => some .shr | 12 => some .cmp | 13 => some .mov | 14 => some .ld | 15 => some .st
  | 16 => some .push | 17 => some .pop | 18 => some .ssp | 19 => some .gsp | 20 => some .jmp
  | 21 => some .jz | 22 => some .jnz | 23 => some .jc | 24 => some .jnc | 25 => some .js
  | 26 => some .jns | 27 => some .jo | 28 => some .jno | 29 => some .call | 30 => some .ret
  | _ => none

def Op.field : Op → BitVec 5
  | .halt => 1 | .add => 2 | .sub => 3 | .mul => 4 | .div => 5 | .mod => 6 | .and => 7 | .or => 8
  | .xor => 9 | .shl => 10 | .shr => 11 | .cmp => 12 | .mov => 13 | .ld => 14 | .st => 15 | .push => 16
  | .pop => 17 | .ssp => 18 | .gsp => 19 | .jmp => 20 | .jz => 21 | .jnz => 22 | .jc => 23 | .jnc => 24
  | .js => 25 | .jns => 26 | .jo => 27 | .jno => 28 | .call => 29 | .ret => 30

/-! ### The allowed forms (R57) -/

/-- Which register fields a form uses; a field that is not used must be zero. -/
structure FormRow where
  usesRd : Bool
  usesRs : Bool
deriving DecidableEq, Repr

/-- The rows of R57; `none` where the opcode does not allow the mode (R65). -/
def formRow (op : Op) (mode : Mode) : Option FormRow :=
  match op with
  | .add | .sub | .mul | .div | .mod | .and | .or | .xor | .shl | .shr | .cmp | .mov =>
    match mode with
    | .imm => some ⟨true, false⟩
    | .reg => some ⟨true, true⟩
    | .rind | .mdir | .srel => none
  | .ld =>
    match mode with
    | .rind => some ⟨true, true⟩
    | .mdir | .srel => some ⟨true, false⟩
    | .imm | .reg => none
  | .st =>
    match mode with
    | .rind => some ⟨true, true⟩
    | .mdir | .srel => some ⟨false, true⟩
    | .imm | .reg => none
  | .push | .ssp | .jmp | .jz | .jnz | .jc | .jnc | .js | .jns | .jo | .jno | .call =>
    match mode with
    | .imm => some ⟨false, false⟩
    | .reg => some ⟨false, true⟩
    | .rind | .mdir | .srel => none
  | .pop | .gsp =>
    match mode with
    | .reg => some ⟨true, false⟩
    | .imm | .rind | .mdir | .srel => none
  | .halt | .ret =>
    match mode with
    | .reg => some ⟨false, false⟩
    | .imm | .rind | .mdir | .srel => none

/-- The form (the row of the opcode table, a constructor of `Instr`) that a well-formed record is an instruction of. -/
def Instruction.form (x : Instruction) : Option Instr :=
  match x.op, x.mode, x.ext with
  | .halt, .reg, none => some .halt
  | .add, .imm, some e => some (.addImm x.rd e)
  | .add, .reg, none => some (.addReg x.rd x.rs)
  | .sub, .imm, some e => some (.subImm x.rd e)
  | .sub, .reg, none => some (.subReg x.rd x.rs)
  | .mul, .imm, some e => some (.mulImm x.rd e)
  | .mul, .reg, none => some (.mulReg x.rd x.rs)
  | .div, .imm, some e => some (.divImm x.rd e)
  | .div, .reg, none => some (.divReg x.rd x.rs)
  | .mod, .imm, some e => some (.modImm x.rd e)
  | .mod, .reg, none => some (.modReg x.rd x.rs)
  | .and, .imm, some e => some (.andImm x.rd e)
  | .and, .reg, none => some (.andReg x.rd x.rs)
  | .or, .imm, some e => some (.orImm x.rd e)
  | .or, .reg, none => some (.orReg x.rd x.rs)
  | .xor, .imm, some e => some (.xorImm x.rd e)
  | .xor, .reg, none => some (.xorReg x.rd x.rs)
  | .shl, .imm, some e => some (.shlImm x.rd e)
  | .shl, .reg, none => some (.shlReg x.rd x.rs)
  | .shr, .imm, some e => some (.shrImm x.rd e)
  | .shr, .reg, none => some (.shrReg x.rd x.rs)
  | .cmp, .imm, some e => some (.cmpImm x.rd e)
  | .cmp, .reg, none => some (.cmpReg x.rd x.rs)
  | .mov, .imm, some e => some (.movImm x.rd e)
  | .mov, .reg, none => some (.movReg x.rd x.rs)
  | .ld, .rind, none => some (.ldInd x.rd x.rs)
  | .ld, .mdir, some e => some (.ldDir x.rd e)
  | .ld, .srel, some e => some (.ldSp x.rd e)
  | .st, .rind, none => some (.stInd x.rd x.rs)
  | .st, .mdir, some e => some (.stDir e x.rs)
  | .st, .srel, some e => some (.stSp e x.rs)
  | .push, .imm, some e => some (.pushImm e)
  | .push, .reg, none => some (.pushReg x.rs)
  | .pop, .reg, none => some (.pop x.rd)
  | .ssp, .imm, some e => some (.sspImm e)
  | .ssp, .reg, none => some (.sspReg x.rs)
  | .gsp, .reg, none => some (.gsp x.rd)
  | .jmp, .imm, some e => some (.jmpImm e)
  | .jmp, .reg, none => some (.jmpReg x.rs)
  | .jz, .imm, some e => some (.jzImm e)
  | .jz, .reg, none => some (.jzReg x.rs)
  | .jnz, .imm, some e => some (.jnzImm e)
  | .jnz, .reg, none => some (.jnzReg x.rs)
  | .jc, .imm, some e => some (.jcImm e)
  | .jc, .reg, none => some (.jcReg x.rs)
  | .jnc, .imm, some e => some (.jncImm e)
  | .jnc, .reg, none => some (.jncReg x.rs)
  | .js, .imm, some e => some (.jsImm e)
  | .js, .reg, none => some (.jsReg x.rs)
  | .jns, .imm, some e => some (.jnsImm e)
  | .jns, .reg, none => some (.jnsReg x.rs)
  | .jo, .imm, some e => some (.joImm e)
  | .jo, .reg, none => some (.joReg x.rs)
  | .jno, .imm, some e => some (.jnoImm e)
  | .jno, .reg, none => some (.jnoReg x.rs)
  | .call, .imm, some e => some (.callImm e)
  | .call, .reg, none => some (.callReg x.rs)
  | .ret, .reg, none => some .ret
  | _, _, _ => none

/-! ### decode (R63) -/

/-- The codec's errors (R64, R65, R66). -/
inductive CodecError where
  /-- The opcode field maps to no instruction (R64). Safe: the core raises the fault of the same name. -/
  | illegalOpcode
  /-- A mode the opcode does not allow, or a nonzero must-be-zero field (R65); also `encode` of a record that is not
  well-formed (R67). Safe. -/
  | illegalOperand
  /-- A needed Word is not in the sequence (R66). Safe: the core raises `MemoryOutOfBounds`. -/
  | outOfRange
deriving DecidableEq, Repr

/-- The result of `decode`: `ok(i, n)`, `n` the words consumed, or an error. -/
inductive DecodeResult (α : Type) where
  | ok (i : α) (n : Nat)
  | err (e : CodecError)
deriving DecidableEq, Repr

/-- The checks R63 makes on the first Word alone, in its order: opcode, mode, reserved bits, unused `rd`, unused `rs`. -/
def checkFirst (w : Word) : Except CodecError (Op × Mode) :=
  match Op.ofField (opcodeField w) with
  | none => .error .illegalOpcode
  | some op =>
    match Mode.ofField (modeField w) with
    | none => .error .illegalOperand
    | some mode =>
      match formRow op mode with
      | none => .error .illegalOperand
      | some row =>
        if zeroField w ≠ 0 then .error .illegalOperand
        else if row.usesRd = false ∧ rdField w ≠ 0 then .error .illegalOperand
        else if row.usesRs = false ∧ rsField w ≠ 0 then .error .illegalOperand
        else .ok (op, mode)

/-- `decode(W, off)` of R63 into the record of R60, over a sequence given by its lookup: `fetch a` is `none` iff
`a >= L`. `off + 1` never wraps (R66). -/
def decodeRecord (fetch : Nat → Option Word) (off : Nat) : DecodeResult Instruction :=
  match fetch off with
  | none => .err .outOfRange
  | some w =>
    match checkFirst w with
    | .error e => .err e
    | .ok (op, mode) =>
      if mode.hasExt then
        match fetch (off + 1) with
        | none => .err .outOfRange
        | some e => .ok ⟨op, mode, Reg.ofField (rdField w), Reg.ofField (rsField w), some e⟩ 2
      else .ok ⟨op, mode, Reg.ofField (rdField w), Reg.ofField (rsField w), none⟩ 1

/-- `decode` into the form. A decoded record always has one (`Instruction.form` answers for every well-formed record),
so the last case is never met. -/
def decodeWith (fetch : Nat → Option Word) (off : Nat) : DecodeResult Instr :=
  match decodeRecord fetch off with
  | .err e => .err e
  | .ok x n =>
    match x.form with
    | some i => .ok i n
    | none => .err .illegalOperand

/-- `decode(Word-sequence, offset)` (R63) on a finite sequence. -/
def decode (ws : List Word) (off : Nat) : DecodeResult Instr :=
  decodeWith (fun a => ws[a]?) off

/-- Words consumed (R63): a failed decode counts as one Word (R70). -/
def DecodeResult.consumed {α : Type} : DecodeResult α → Nat
  | .ok _ n => n
  | .err _ => 1

/-! ### encode (R67) -/

/-- The record of each form (R57, R60): unused fields are held at 0 / `none`. -/
def Instr.record : Instr → Instruction
  | .halt => ⟨.halt, .reg, .r0, .r0, none⟩
  | .addImm rd imm => ⟨.add, .imm, rd, .r0, some imm⟩
  | .addReg rd rs => ⟨.add, .reg, rd, rs, none⟩
  | .subImm rd imm => ⟨.sub, .imm, rd, .r0, some imm⟩
  | .subReg rd rs => ⟨.sub, .reg, rd, rs, none⟩
  | .mulImm rd imm => ⟨.mul, .imm, rd, .r0, some imm⟩
  | .mulReg rd rs => ⟨.mul, .reg, rd, rs, none⟩
  | .divImm rd imm => ⟨.div, .imm, rd, .r0, some imm⟩
  | .divReg rd rs => ⟨.div, .reg, rd, rs, none⟩
  | .modImm rd imm => ⟨.mod, .imm, rd, .r0, some imm⟩
  | .modReg rd rs => ⟨.mod, .reg, rd, rs, none⟩
  | .andImm rd imm => ⟨.and, .imm, rd, .r0, some imm⟩
  | .andReg rd rs => ⟨.and, .reg, rd, rs, none⟩
  | .orImm rd imm => ⟨.or, .imm, rd, .r0, some imm⟩
  | .orReg rd rs => ⟨.or, .reg, rd, rs, none⟩
  | .xorImm rd imm => ⟨.xor, .imm, rd, .r0, some imm⟩
  | .xorReg rd rs => ⟨.xor, .reg, rd, rs, none⟩
  | .shlImm rd imm => ⟨.shl, .imm, rd, .r0, some imm⟩
  | .shlReg rd rs => ⟨.shl, .reg, rd, rs, none⟩
  | .shrImm rd imm => ⟨.shr, .imm, rd, .r0, some imm⟩
  | .shrReg rd rs => ⟨.shr, .reg, rd, rs, none⟩
  | .cmpImm rd imm => ⟨.cmp, .imm, rd, .r0, some imm⟩
  | .cmpReg rd rs => ⟨.cmp, .reg, rd, rs, none⟩
  | .movImm rd imm => ⟨.mov, .imm, rd, .r0, some imm⟩
  | .movReg rd rs => ⟨.mov, .reg, rd, rs, none⟩
  | .ldInd rd rs => ⟨.ld, .rind, rd, rs, none⟩
  | .ldDir rd addr => ⟨.ld, .mdir, rd, .r0, some addr⟩
  | .ldSp rd off => ⟨.ld, .srel, rd, .r0, some off⟩
  | .stInd rd rs => ⟨.st, .rind, rd, rs, none⟩
  | .stDir addr rs => ⟨.st, .mdir, .r0, rs, some addr⟩
  | .stSp off rs => ⟨.st, .srel, .r0, rs, some off⟩
  | .pushImm imm => ⟨.push, .imm, .r0, .r0, some imm⟩
  | .pushReg rs => ⟨.push, .reg, .r0, rs, none⟩
  | .pop rd => ⟨.pop, .reg, rd, .r0, none⟩
  | .sspImm imm => ⟨.ssp, .imm, .r0, .r0, some imm⟩
  | .sspReg rs => ⟨.ssp, .reg, .r0, rs, none⟩
  | .gsp rd => ⟨.gsp, .reg, rd, .r0, none⟩
  | .jmpImm imm => ⟨.jmp, .imm, .r0, .r0, some imm⟩
  | .jmpReg rs => ⟨.jmp, .reg, .r0, rs, none⟩
  | .jzImm imm => ⟨.jz, .imm, .r0, .r0, some imm⟩
  | .jzReg rs => ⟨.jz, .reg, .r0, rs, none⟩
  | .jnzImm imm => ⟨.jnz, .imm, .r0, .r0, some imm⟩
  | .jnzReg rs => ⟨.jnz, .reg, .r0, rs, none⟩
  | .jcImm imm => ⟨.jc, .imm, .r0, .r0, some imm⟩
  | .jcReg rs => ⟨.jc, .reg, .r0, rs, none⟩
  | .jncImm imm => ⟨.jnc, .imm, .r0, .r0, some imm⟩
  | .jncReg rs => ⟨.jnc, .reg, .r0, rs, none⟩
  | .jsImm imm => ⟨.js, .imm, .r0, .r0, some imm⟩
  | .jsReg rs => ⟨.js, .reg, .r0, rs, none⟩
  | .jnsImm imm => ⟨.jns, .imm, .r0, .r0, some imm⟩
  | .jnsReg rs => ⟨.jns, .reg, .r0, rs, none⟩
  | .joImm imm => ⟨.jo, .imm, .r0, .r0, some imm⟩
  | .joReg rs => ⟨.jo, .reg, .r0, rs, none⟩
  | .jnoImm imm => ⟨.jno, .imm, .r0, .r0, some imm⟩
  | .jnoReg rs => ⟨.jno, .reg, .r0, rs, none⟩
  | .callImm imm => ⟨.call, .imm, .r0, .r0, some imm⟩
  | .callReg rs => ⟨.call, .reg, .r0, rs, none⟩
  | .ret => ⟨.ret, .reg, .r0, .r0, none⟩

/-- The result of `encode` on a record. -/
inductive EncodeResult where
  | ok (ws : List Word)
  | err (e : CodecError)
deriving DecidableEq, Repr

/-- The Words of a record: the first Word of R51, then `ext` if there is one (R58: whole and unchanged). -/
def Instruction.words (x : Instruction) : List Word :=
  let w := firstWord x.op.field x.mode.field x.rd.field x.rs.field
  match x.ext with
  | some e => [w, e]
  | none => [w]

/-- `encode(i)` of R67 on a record: refused with `IllegalOperand` if the record is not well-formed. -/
def encodeRecord (x : Instruction) : EncodeResult :=
  if x.wf then .ok x.words else .err .illegalOperand

/-- `encode` on a form. A form is always well-formed (`Sys2Proof.Laws.record_wf`), so there is nothing to refuse. -/
def encode (i : Instr) : List Word := i.record.words

/-- The length in Words of a form, by its mode alone (R54). -/
def Instr.len (i : Instr) : Nat := if i.record.mode.hasExt then 2 else 1

/-- The operand list of a form, in assembly order (R61). -/
def Instr.operands (i : Instr) : List Operand :=
  let x := i.record
  match x.op.shape, x.mode, x.ext with
  | .ds, .imm, some e  => [.reg x.rd, .imm e]
  | .ds, .reg, _       => [.reg x.rd, .reg x.rs]
  | .ld, .rind, _      => [.reg x.rd, .indReg x.rs]
  | .ld, .mdir, some e => [.reg x.rd, .direct e]
  | .ld, .srel, some e => [.reg x.rd, .stackRel e]
  | .st, .rind, _      => [.indReg x.rd, .reg x.rs]
  | .st, .mdir, some e => [.direct e, .reg x.rs]
  | .st, .srel, some e => [.stackRel e, .reg x.rs]
  | .s, .imm, some e   => [.imm e]
  | .s, .reg, _        => [.reg x.rs]
  | .d, _, _           => [.reg x.rd]
  | _, _, _            => []

/-! ### The host's reading of one table word -/

/-- The first two Words of an instruction given as one number, bit 0 the least significant bit of the first Word; the
bits at and above `nbits` are 0. -/
def tableWords (nbits w : Nat) : List Word :=
  let v := w % 2 ^ nbits
  [BitVec.ofNat 16 v, BitVec.ofNat 16 (v / 65536)]

/-- The instruction the decoder reads from an instruction whose bits are `w` (log entry 9). -/
def decodeTableWord (nbits w : Nat) : Option Instr :=
  match decode (tableWords nbits w) 0 with
  | .ok i _ => some i
  | .err _ => none

end Sys2Proof
end

