-- ==== Sys2Proof/Config.lean ====
section
/-! DEFINITION. The parameters an implementation fixes at construction (spec/00_scope.md R6). -/

namespace Sys2Proof

/-- The record `Config` of R6. -/
structure Config where
  /-- `MEM_WORDS`: valid addresses are `0 .. memWords - 1`. -/
  memWords : Nat
  /-- `STACK_LO`: lowest address of the declared stack region. -/
  stackLo : Nat
  /-- `STACK_HI`: highest address of the declared stack region, inclusive. -/
  stackHi : Nat
  /-- `FORMAT_VERSION`: the one recognised first Word of an image header. -/
  formatVersion : Word
deriving DecidableEq, Repr

/-- The constraints of R6: "A `Config` that breaks a constraint is not a configuration of this hardware". -/
def Config.wf (c : Config) : Bool :=
  decide (1 ≤ c.memWords ∧ c.memWords ≤ 65536 ∧ c.stackLo ≤ c.stackHi ∧
    c.stackHi < c.memWords ∧ c.stackHi ≤ 0xFFFE)

/-- `CFG_REF`, the reference configuration of R6 and D26. -/
def Config.ref : Config :=
  { memWords := 0x0400, stackLo := 0x03C0, stackHi := 0x03FF, formatVersion := 1 }

end Sys2Proof
end

