-- ==== Sys2Proof/Machine/State.lean ====
section
/-! DEFINITION. The state of the machine as plain data (spec/10_state.md), the reasons a step can stop, and the state
right after reset. -/

namespace Sys2Proof.Machine

/-- The register file `x[0] .. x[7]` (R10): no register is hard-wired. -/
structure RegFile where
  r0 : Word
  r1 : Word
  r2 : Word
  r3 : Word
  r4 : Word
  r5 : Word
  r6 : Word
  r7 : Word
deriving DecidableEq, Repr

/-- All eight registers zero (R24). -/
def RegFile.zero : RegFile := ⟨0, 0, 0, 0, 0, 0, 0, 0⟩

/-- The flags register: four separate bits, with no architected layout (R15, R17). -/
structure Flags where
  /-- `Z`, zero. -/
  z : Bool
  /-- `C`, carry. -/
  c : Bool
  /-- `S`, sign. -/
  s : Bool
  /-- `V`, overflow. -/
  v : Bool
deriving DecidableEq, Repr

/-- All four flags 0 (R24). -/
def Flags.zero : Flags := ⟨false, false, false, false⟩

/-- The run states (R20). -/
inductive RunState where
  | ready | running | halted | faulted
deriving DecidableEq, Repr

/-- The six runtime faults (spec/60_exceptions.md R143): "all the synchronous exceptions there are". -/
inductive FaultCause where
  | divisionByZero | stackOverflow | stackUnderflow | memoryOutOfBounds | illegalOpcode | illegalOperand
deriving DecidableEq, Repr

/-- The memory `M` (R19) as the host's cells, in one canonical form (`Memory.wf`): the Word at address `a` is held as
the bytes `2a` (bits 7..0) and `2a + 1` (bits 15..8), which no program can observe (R32; log entry 3). -/
abbrev Memory := List Host.Cell

/-- Every piece of state the spec gives the machine (R18, R19), and the model's own `cfg` (R23; log entry 1). -/
structure State where
  /-- The parameters fixed at construction (R6); no operation changes them. -/
  cfg : Config
  /-- `x[0] .. x[7]` (R10). -/
  regs : RegFile
  /-- The program counter, a Word address (R12). -/
  pc : Word
  /-- The stack pointer, a Word address (R14). -/
  sp : Word
  /-- `Z`, `C`, `S`, `V` (R15). -/
  flags : Flags
  /-- The run state (R20). -/
  run : RunState
  /-- The latched fault; `none` is the spec's `None` (R21). -/
  cause : Option FaultCause
  /-- The entry point of the last loaded image (R22). -/
  entry : Word
  /-- The memory (R19). -/
  mem : Memory
deriving DecidableEq, Repr

/-- Reasons for the host's `fault` outcome: NONE. A runtime fault of this machine is not a stop of the model: fault
entry is described (R150) and is a next state, in Faulted with its cause (log entry 4). Safe. -/
inductive Fault where
deriving DecidableEq, Repr

/-- Reasons for the host's `refused` outcome. -/
inductive Refusal where
  /-- Raised by `exec` for an instruction that has no meaning in the model; no instruction is left in that case.
  Safe: nothing can be proved of such a step. -/
  | notModelled (mnemonic : String)
  /-- Raised by `step` when `cfg` breaks a constraint of R6, which "is not a configuration of this hardware"
  (log entry 5). Safe: no such machine exists. -/
  | illFormedConfig
deriving DecidableEq, Repr

/-- The outcome of one instruction. -/
abbrev Outcome := Host.Outcome State Fault Refusal

/-- The machine right after reset (R24, R171): what `Load` of an image of no Words with entry point 0 leaves under
`CFG_REF` (log entries 1 and 2). Memory lists nothing: every Word reads 0x0000, as after `Load` (R24, R173). -/
def State.reset : State :=
  { cfg := Config.ref
    regs := RegFile.zero
    pc := 0
    sp := 0
    flags := Flags.zero
    run := .ready
    cause := none
    entry := 0
    mem := [] }

end Sys2Proof.Machine
end

