-- ==== Sys2Proof/Machine/Memory.lean ====
section
/-! DEFINITION. The memory `M` (spec/20_memory.md): reading and writing one Word, over the canonical list of cells. -/

namespace Sys2Proof.Machine

/-- What an unlisted byte reads as: zero fill, "0x0000 for every other address" (spec/10_state.md R24, R173). -/
def unlistedByte : Byte := 0

/-- One byte of the cell list. -/
def Memory.readByte : Memory → Nat → Byte
  | [], _ => unlistedByte
  | (k, x) :: m, a => if k = a then x else Memory.readByte m a

/-- Writes one byte and keeps the canonical form: writing the value an unlisted byte reads as removes the entry. -/
def Memory.writeByte : Memory → Nat → Byte → Memory
  | [], a, v => if v = unlistedByte then [] else [(a, v)]
  | (k, x) :: m, a, v =>
    if a < k then (if v = unlistedByte then (k, x) :: m else (a, v) :: (k, x) :: m)
    else if a = k then (if v = unlistedByte then m else (a, v) :: m)
    else (k, x) :: Memory.writeByte m a v

/-- Every listed address is at least `lo`, the addresses rise strictly, and no entry is an unlisted value. -/
def Memory.wfFrom : Nat → Memory → Bool
  | _, [] => true
  | lo, (k, x) :: m => decide (lo ≤ k) && decide (x ≠ unlistedByte) && Memory.wfFrom (k + 1) m

/-- The canonical form of a cell list. -/
def Memory.wf (m : Memory) : Bool := Memory.wfFrom 0 m

/-- No cell is listed at or above byte address `bound`. -/
def Memory.below (bound : Nat) (m : Memory) : Bool := m.all fun cell => decide (cell.1 < bound)

/-- `M[a]` (R30): bytes `2a` and `2a + 1` (log entry 3). -/
def Memory.readWord (m : Memory) (a : Nat) : Word :=
  Memory.readByte m (2 * a + 1) ++ Memory.readByte m (2 * a)

/-- `M[a] <- v` (R34): "no other Word changes". -/
def Memory.writeWord (m : Memory) (a : Nat) (v : Word) : Memory :=
  Memory.writeByte (Memory.writeByte m (2 * a) (v.extractLsb' 0 8)) (2 * a + 1) (v.extractLsb' 8 8)

/-- The memory that holds the Words `ws` from address `a` on, and 0x0000 everywhere else (R173). -/
def Memory.ofWords : Nat → List Word → Memory
  | _, [] => []
  | a, w :: ws => Memory.writeWord (Memory.ofWords (a + 1) ws) a w

end Sys2Proof.Machine
end

