-- ==== Sys2Proof/Machine/Ops.lean ====
section
/-! DEFINITION. The named operations over registers, memory and stack (the pseudocode primitives of spec/00_scope.md R8),
how an instruction commits, and how it takes a fault (spec/60_exceptions.md R150). -/

namespace Sys2Proof.Machine

/-! ### Numbers (R7) -/

/-- `trunc16(n) = n mod 65536`, for any integer. -/
def trunc16 (n : Int) : Word := BitVec.ofInt 16 n

/-- `s16(w)`, the two's-complement reading: `w` if `w < 32768`, else `w - 65536`. -/
def s16 (w : Word) : Int := if w.toNat < 32768 then (w.toNat : Int) else (w.toNat : Int) - 65536

/-! ### Registers (spec/10_state.md) -/

/-- Read `x[r]`. -/
def RegFile.get (f : RegFile) : Reg → Word
  | .r0 => f.r0 | .r1 => f.r1 | .r2 => f.r2 | .r3 => f.r3
  | .r4 => f.r4 | .r5 => f.r5 | .r6 => f.r6 | .r7 => f.r7

/-- `x[r] <- v`. -/
def RegFile.set (f : RegFile) (r : Reg) (v : Word) : RegFile :=
  match r with
  | .r0 => { f with r0 := v } | .r1 => { f with r1 := v } | .r2 => { f with r2 := v } | .r3 => { f with r3 := v }
  | .r4 => { f with r4 := v } | .r5 => { f with r5 := v } | .r6 => { f with r6 := v } | .r7 => { f with r7 := v }

/-- `x[r]` (R8). -/
def State.reg (s : State) (r : Reg) : Word := s.regs.get r

/-- `x[r] <- v` (R8). -/
def State.setReg (s : State) (r : Reg) (v : Word) : State := { s with regs := s.regs.set r v }

/-- All four flags are written together (R16). -/
def State.setFlags (s : State) (f : Flags) : State := { s with flags := f }

/-- `sp <- v`. -/
def State.setSp (s : State) (v : Word) : State := { s with sp := v }

/-! ### The program counter (R13) -/

/-- `trunc16(pc + len)`. -/
def nextPc (len : Nat) (s : State) : Word := trunc16 (s.pc.toNat + len)

/-- The default PC update, `pc <- trunc16(pc + len)`. -/
def advance (len : Nat) (s : State) : State := { s with pc := nextPc len s }

/-- `pc <- target` (spec/43_control_flow.md R120): not checked. -/
def jumpTo (target : Word) (s : State) : State := { s with pc := target }

/-! ### Commit and fault entry -/

/-- Ready becomes Running with the first step; every other run state stays (R20, R141). -/
def RunState.started : RunState → RunState
  | .ready => .running
  | r => r

/-- "commit all writes of the rule at once" (R140); `t` is the state before the step with the writes made. -/
def commit (t : State) : Outcome := .next { t with run := t.run.started }

/-- HALT's commit: `run <- Halted` (R132). -/
def commitHalt (t : State) : Outcome := .next { t with run := .halted }

/-- TAKING A FAULT (R150): `s` is the state before the step, so every write of the instruction is discarded; only `run`
and `cause` change. `pc` stays, nothing is pushed, control goes nowhere. -/
def raise (f : FaultCause) (s : State) : Outcome := .next { s with run := .faulted, cause := some f }

/-- An instruction "either fully commits ... or fully faults" (R8, R151): `s` is the state before the step. -/
def finish (s : State) : Except FaultCause State → Outcome
  | .ok t => commit t
  | .error f => raise f s

/-! ### Memory access (spec/20_memory.md) -/

/-- The Word at `a` if `a` is valid (R31). -/
def fetchWord (s : State) (a : Nat) : Option Word :=
  if a < s.cfg.memWords then some (s.mem.readWord a) else none

/-- `MemRead(addr, 1)` (R33). -/
def memRead (s : State) (a : Nat) : Except FaultCause Word :=
  if a < s.cfg.memWords then .ok (s.mem.readWord a) else .error .memoryOutOfBounds

/-- `MemWrite(addr, 1, v)` (R34). -/
def memWrite (s : State) (a : Nat) (v : Word) : Except FaultCause State :=
  if a < s.cfg.memWords then .ok { s with mem := s.mem.writeWord a v } else .error .memoryOutOfBounds

/-! ### The stack (spec/42_stack.md) -/

/-- A slot: `STACK_LO <= a <= STACK_HI`, on unbounded integers (R110). -/
def isSlot (c : Config) (a : Int) : Bool := decide ((c.stackLo : Int) ≤ a ∧ a ≤ (c.stackHi : Int))

/-- `Push(v)` (R111): slot `sp - 1`, which is -1 when `sp = 0`. -/
def push (v : Word) (s : State) : Except FaultCause State :=
  let new : Int := (s.sp.toNat : Int) - 1
  if isSlot s.cfg new then .ok { s with mem := s.mem.writeWord new.toNat v, sp := trunc16 new }
  else .error .stackOverflow

/-- `Pop()` (R112): slot `sp`; the slot keeps its contents. -/
def pop (s : State) : Except FaultCause (Word × State) :=
  if isSlot s.cfg s.sp.toNat then .ok (s.mem.readWord s.sp.toNat, { s with sp := trunc16 (s.sp.toNat + 1) })
  else .error .stackUnderflow

/-! ### Fault codes -/

/-- The numeric code of `cause` (R143): labels only, no program can read them. -/
def causeCode : Option FaultCause → BitVec 3
  | none => 0
  | some .divisionByZero => 1
  | some .stackOverflow => 2
  | some .stackUnderflow => 3
  | some .memoryOutOfBounds => 4
  | some .illegalOpcode => 5
  | some .illegalOperand => 6

/-- The fault a failed decode raises (R140, R146). -/
def faultOfDecode : CodecError → FaultCause
  | .outOfRange => .memoryOutOfBounds
  | .illegalOpcode => .illegalOpcode
  | .illegalOperand => .illegalOperand

end Sys2Proof.Machine
end

