-- ==== Sys2Proof/Machine/Flags.lean ====
section
/-! DEFINITION. The results and flags of the arithmetic and logic instructions (spec/40_arithmetic_logic.md), each as
the rule's own pseudocode on integers. -/

namespace Sys2Proof.Machine

/-- A 16-bit result and the four flags. -/
structure AluResult where
  value : Word
  flags : Flags
deriving DecidableEq, Repr

/-- `set_ZS(r)` with the instruction's own `C` and `V` (R81). -/
def setZS (r : Word) (c v : Bool) : AluResult :=
  { value := r, flags := { z := decide (r = 0), c := c, s := r.getLsbD 15, v := v } }

/-- ADD (R82): carry out of bit 15, and signed overflow. -/
def addResult (a b : Word) : AluResult :=
  let t := a.toNat + b.toNat
  let r := trunc16 t
  setZS r (decide (t ≥ 65536)) (decide (a.getLsbD 15 = b.getLsbD 15 ∧ r.getLsbD 15 ≠ a.getLsbD 15))

/-- SUB and CMP (R83, R92): `C` is the borrow. -/
def subResult (a b : Word) : AluResult :=
  let r := trunc16 ((a.toNat : Int) - b.toNat)
  setZS r (decide (a.toNat < b.toNat)) (decide (a.getLsbD 15 ≠ b.getLsbD 15 ∧ r.getLsbD 15 ≠ a.getLsbD 15))

/-- MUL (R84): `C` iff the unsigned product does not fit, `V` iff the signed one does not. -/
def mulResult (a b : Word) : AluResult :=
  let p := a.toNat * b.toNat
  let q := s16 a * s16 b
  setZS (trunc16 p) (decide (p ≥ 65536)) (decide (q < -32768 ∨ q > 32767))

/-- DIV (R85): unsigned floor quotient; a zero divisor raises the fault. -/
def divResult (a b : Word) : Except FaultCause AluResult :=
  if b.toNat = 0 then .error .divisionByZero
  else .ok (setZS (trunc16 (a.toNat / b.toNat : Nat)) false false)

/-- MOD (R86): unsigned remainder; a zero divisor raises the fault. -/
def modResult (a b : Word) : Except FaultCause AluResult :=
  if b.toNat = 0 then .error .divisionByZero
  else .ok (setZS (trunc16 (a.toNat % b.toNat : Nat)) false false)

/-- AND (R87). -/
def andResult (a b : Word) : AluResult := setZS (a &&& b) false false

/-- OR (R88). -/
def orResult (a b : Word) : AluResult := setZS (a ||| b) false false

/-- XOR (R89). -/
def xorResult (a b : Word) : AluResult := setZS (a ^^^ b) false false

/-- SHL (R90): `t = a * 2^n` unbounded, the whole 16-bit count; `C` is bit 16 of `t`. -/
def shlResult (a b : Word) : AluResult :=
  let t := a.toNat * 2 ^ b.toNat
  setZS (trunc16 t) (t.testBit 16) false

/-- SHR (R91): `a div 2^n`; `C` is `((2 * a) div 2^n) mod 2`. -/
def shrResult (a b : Word) : AluResult :=
  setZS (trunc16 (a.toNat / 2 ^ b.toNat : Nat)) (decide (2 * a.toNat / 2 ^ b.toNat % 2 = 1)) false

end Sys2Proof.Machine
end

