-- ==== Sys2Proof/Machine/Operands.lean ====
section
/-! DEFINITION. The operand forms: the source value (spec/30_encoding.md R62) and the effective address
(spec/41_move_memory.md R100), both read from the state before the step. -/

namespace Sys2Proof.Machine

/-- `src_value` in `imm` mode: `ext`, whole and unchanged (R58, R62). -/
def srcImm (imm : Word) (_s : State) : Word := imm

/-- `src_value` in `reg` mode: `x[rs]` (R62). -/
def srcReg (rs : Reg) (s : State) : Word := s.reg rs

/-- `ea` in `rind` mode: the address register's value (R100). -/
def eaInd (r : Reg) (s : State) : Nat := (s.reg r).toNat

/-- `ea` in `mdir` mode: `ext` (R100). -/
def eaDir (addr : Word) (_s : State) : Nat := addr.toNat

/-- `ea` in `srel` mode: `trunc16(sp + ext)` (R39, R100). -/
def eaSp (off : Word) (s : State) : Nat := (trunc16 (s.sp.toNat + off.toNat)).toNat

end Sys2Proof.Machine
end

