-- ==== Sys2Proof/Machine/ArithLogic.lean ====
section
/-! DEFINITION. The arithmetic and logic instructions (spec/40_arithmetic_logic.md): ADD, SUB, MUL, DIV, MOD, AND, OR, XOR,
SHL, SHR, CMP. Template R80: `a = x[rd]` and `b = src_value` are read from the state before the step. -/

namespace Sys2Proof.Machine

/-- Writes the result to `x[rd]`, all four flags, and advances `pc` (R80). -/
def withResult (rd : Reg) (len : Nat) (s : State) (r : AluResult) : State :=
  advance len ((s.setReg rd r.value).setFlags r.flags)

/-- The template of R80. -/
def aluWrite (rd : Reg) (len : Nat) (r : AluResult) (s : State) : Outcome := commit (withResult rd len s r)

/-- The template of R80 for DIV and MOD, which may fault; a fault writes nothing. -/
def aluTry (rd : Reg) (len : Nat) (r : Except FaultCause AluResult) (s : State) : Outcome :=
  finish s (r.map (withResult rd len s))

/-- The template of R80 for CMP: "No register is written" (R92). -/
def aluTest (len : Nat) (r : AluResult) (s : State) : Outcome := commit (advance len (s.setFlags r.flags))

/-- `ADD Rd, imm` (R82). -/
def execAddImm (rd : Reg) (imm : Word) (s : State) : Outcome :=
  aluWrite rd 2 (addResult (s.reg rd) (srcImm imm s)) s

/-- `ADD Rd, Rs` (R82). -/
def execAddReg (rd : Reg) (rs : Reg) (s : State) : Outcome :=
  aluWrite rd 1 (addResult (s.reg rd) (srcReg rs s)) s

/-- `SUB Rd, imm` (R83). -/
def execSubImm (rd : Reg) (imm : Word) (s : State) : Outcome :=
  aluWrite rd 2 (subResult (s.reg rd) (srcImm imm s)) s

/-- `SUB Rd, Rs` (R83). -/
def execSubReg (rd : Reg) (rs : Reg) (s : State) : Outcome :=
  aluWrite rd 1 (subResult (s.reg rd) (srcReg rs s)) s

/-- `MUL Rd, imm` (R84). -/
def execMulImm (rd : Reg) (imm : Word) (s : State) : Outcome :=
  aluWrite rd 2 (mulResult (s.reg rd) (srcImm imm s)) s

/-- `MUL Rd, Rs` (R84). -/
def execMulReg (rd : Reg) (rs : Reg) (s : State) : Outcome :=
  aluWrite rd 1 (mulResult (s.reg rd) (srcReg rs s)) s

/-- `DIV Rd, imm` (R85). -/
def execDivImm (rd : Reg) (imm : Word) (s : State) : Outcome :=
  aluTry rd 2 (divResult (s.reg rd) (srcImm imm s)) s

/-- `DIV Rd, Rs` (R85). -/
def execDivReg (rd : Reg) (rs : Reg) (s : State) : Outcome :=
  aluTry rd 1 (divResult (s.reg rd) (srcReg rs s)) s

/-- `MOD Rd, imm` (R86). -/
def execModImm (rd : Reg) (imm : Word) (s : State) : Outcome :=
  aluTry rd 2 (modResult (s.reg rd) (srcImm imm s)) s

/-- `MOD Rd, Rs` (R86). -/
def execModReg (rd : Reg) (rs : Reg) (s : State) : Outcome :=
  aluTry rd 1 (modResult (s.reg rd) (srcReg rs s)) s

/-- `AND Rd, imm` (R87). -/
def execAndImm (rd : Reg) (imm : Word) (s : State) : Outcome :=
  aluWrite rd 2 (andResult (s.reg rd) (srcImm imm s)) s

/-- `AND Rd, Rs` (R87). -/
def execAndReg (rd : Reg) (rs : Reg) (s : State) : Outcome :=
  aluWrite rd 1 (andResult (s.reg rd) (srcReg rs s)) s

/-- `OR Rd, imm` (R88). -/
def execOrImm (rd : Reg) (imm : Word) (s : State) : Outcome :=
  aluWrite rd 2 (orResult (s.reg rd) (srcImm imm s)) s

/-- `OR Rd, Rs` (R88). -/
def execOrReg (rd : Reg) (rs : Reg) (s : State) : Outcome :=
  aluWrite rd 1 (orResult (s.reg rd) (srcReg rs s)) s

/-- `XOR Rd, imm` (R89). -/
def execXorImm (rd : Reg) (imm : Word) (s : State) : Outcome :=
  aluWrite rd 2 (xorResult (s.reg rd) (srcImm imm s)) s

/-- `XOR Rd, Rs` (R89). -/
def execXorReg (rd : Reg) (rs : Reg) (s : State) : Outcome :=
  aluWrite rd 1 (xorResult (s.reg rd) (srcReg rs s)) s

/-- `SHL Rd, imm` (R90). -/
def execShlImm (rd : Reg) (imm : Word) (s : State) : Outcome :=
  aluWrite rd 2 (shlResult (s.reg rd) (srcImm imm s)) s

/-- `SHL Rd, Rs` (R90). -/
def execShlReg (rd : Reg) (rs : Reg) (s : State) : Outcome :=
  aluWrite rd 1 (shlResult (s.reg rd) (srcReg rs s)) s

/-- `SHR Rd, imm` (R91). -/
def execShrImm (rd : Reg) (imm : Word) (s : State) : Outcome :=
  aluWrite rd 2 (shrResult (s.reg rd) (srcImm imm s)) s

/-- `SHR Rd, Rs` (R91). -/
def execShrReg (rd : Reg) (rs : Reg) (s : State) : Outcome :=
  aluWrite rd 1 (shrResult (s.reg rd) (srcReg rs s)) s

/-- `CMP Rd, imm` (R92). -/
def execCmpImm (rd : Reg) (imm : Word) (s : State) : Outcome :=
  aluTest 2 (subResult (s.reg rd) (srcImm imm s)) s

/-- `CMP Rd, Rs` (R92). -/
def execCmpReg (rd : Reg) (rs : Reg) (s : State) : Outcome :=
  aluTest 1 (subResult (s.reg rd) (srcReg rs s)) s

end Sys2Proof.Machine
end

