-- ==== Sys2Proof/Machine/ControlFlow.lean ====
section
/-! DEFINITION. The jumps, CALL, RET and HALT (spec/43_control_flow.md). No instruction of this file writes a flag or a
general register (R133). -/

namespace Sys2Proof.Machine

/-- A conditional jump: the target if `cond`, else the next instruction (R13, R120). -/
def jumpIf (cond : Bool) (target : Word) (len : Nat) (s : State) : Outcome :=
  commit (if cond then jumpTo target s else advance len s)

/-- `JMP imm` (R121). -/
def execJmpImm (imm : Word) (s : State) : Outcome :=
  commit (jumpTo (srcImm imm s) s)

/-- `JMP Rs` (R121). -/
def execJmpReg (rs : Reg) (s : State) : Outcome :=
  commit (jumpTo (srcReg rs s) s)

/-- `JZ imm` (R122). -/
def execJzImm (imm : Word) (s : State) : Outcome :=
  jumpIf s.flags.z (srcImm imm s) 2 s

/-- `JZ Rs` (R122). -/
def execJzReg (rs : Reg) (s : State) : Outcome :=
  jumpIf s.flags.z (srcReg rs s) 1 s

/-- `JNZ imm` (R123). -/
def execJnzImm (imm : Word) (s : State) : Outcome :=
  jumpIf (!s.flags.z) (srcImm imm s) 2 s

/-- `JNZ Rs` (R123). -/
def execJnzReg (rs : Reg) (s : State) : Outcome :=
  jumpIf (!s.flags.z) (srcReg rs s) 1 s

/-- `JC imm` (R124). -/
def execJcImm (imm : Word) (s : State) : Outcome :=
  jumpIf s.flags.c (srcImm imm s) 2 s

/-- `JC Rs` (R124). -/
def execJcReg (rs : Reg) (s : State) : Outcome :=
  jumpIf s.flags.c (srcReg rs s) 1 s

/-- `JNC imm` (R125). -/
def execJncImm (imm : Word) (s : State) : Outcome :=
  jumpIf (!s.flags.c) (srcImm imm s) 2 s

/-- `JNC Rs` (R125). -/
def execJncReg (rs : Reg) (s : State) : Outcome :=
  jumpIf (!s.flags.c) (srcReg rs s) 1 s

/-- `JS imm` (R126). -/
def execJsImm (imm : Word) (s : State) : Outcome :=
  jumpIf s.flags.s (srcImm imm s) 2 s

/-- `JS Rs` (R126). -/
def execJsReg (rs : Reg) (s : State) : Outcome :=
  jumpIf s.flags.s (srcReg rs s) 1 s

/-- `JNS imm` (R127). -/
def execJnsImm (imm : Word) (s : State) : Outcome :=
  jumpIf (!s.flags.s) (srcImm imm s) 2 s

/-- `JNS Rs` (R127). -/
def execJnsReg (rs : Reg) (s : State) : Outcome :=
  jumpIf (!s.flags.s) (srcReg rs s) 1 s

/-- `JO imm` (R128). -/
def execJoImm (imm : Word) (s : State) : Outcome :=
  jumpIf s.flags.v (srcImm imm s) 2 s

/-- `JO Rs` (R128). -/
def execJoReg (rs : Reg) (s : State) : Outcome :=
  jumpIf s.flags.v (srcReg rs s) 1 s

/-- `JNO imm` (R129). -/
def execJnoImm (imm : Word) (s : State) : Outcome :=
  jumpIf (!s.flags.v) (srcImm imm s) 2 s

/-- `JNO Rs` (R129). -/
def execJnoReg (rs : Reg) (s : State) : Outcome :=
  jumpIf (!s.flags.v) (srcReg rs s) 1 s

/-- `CALL imm` (R130). -/
def execCallImm (imm : Word) (s : State) : Outcome :=
  finish s ((push (nextPc 2 s) s).map (jumpTo (srcImm imm s)))

/-- `CALL Rs` (R130). -/
def execCallReg (rs : Reg) (s : State) : Outcome :=
  finish s ((push (nextPc 1 s) s).map (jumpTo (srcReg rs s)))

/-- `RET` (R131). -/
def execRet (s : State) : Outcome :=
  finish s ((pop s).map fun vt => jumpTo vt.1 vt.2)

/-- `HALT` (R132). -/
def execHalt (s : State) : Outcome :=
  commitHalt (advance 1 s)

end Sys2Proof.Machine
end

