-- ==== Sys2Proof/Machine/MoveMemory.lean ====
section
/-! DEFINITION. MOV, LD and ST (spec/41_move_memory.md). None of them writes a flag. -/

namespace Sys2Proof.Machine

/-- LD from effective address `ea` (R102). -/
def loadReg (rd : Reg) (len ea : Nat) (s : State) : Outcome :=
  finish s ((memRead s ea).map fun v => advance len (s.setReg rd v))

/-- ST of `x[rs]` to effective address `ea` (R103). -/
def storeReg (rs : Reg) (len ea : Nat) (s : State) : Outcome :=
  finish s ((memWrite s ea (s.reg rs)).map (advance len))

/-- `MOV Rd, imm` (R101). -/
def execMovImm (rd : Reg) (imm : Word) (s : State) : Outcome :=
  commit (advance 2 (s.setReg rd (srcImm imm s)))

/-- `MOV Rd, Rs` (R101). -/
def execMovReg (rd : Reg) (rs : Reg) (s : State) : Outcome :=
  commit (advance 1 (s.setReg rd (srcReg rs s)))

/-- `LD Rd, [Rs]` (R102). -/
def execLdInd (rd : Reg) (rs : Reg) (s : State) : Outcome :=
  loadReg rd 1 (eaInd rs s) s

/-- `LD Rd, [addr]` (R102). -/
def execLdDir (rd : Reg) (addr : Word) (s : State) : Outcome :=
  loadReg rd 2 (eaDir addr s) s

/-- `LD Rd, [SP+off]` (R102). -/
def execLdSp (rd : Reg) (off : Word) (s : State) : Outcome :=
  loadReg rd 2 (eaSp off s) s

/-- `ST [Rd], Rs` (R103). -/
def execStInd (rd : Reg) (rs : Reg) (s : State) : Outcome :=
  storeReg rs 1 (eaInd rd s) s

/-- `ST [addr], Rs` (R103). -/
def execStDir (addr : Word) (rs : Reg) (s : State) : Outcome :=
  storeReg rs 2 (eaDir addr s) s

/-- `ST [SP+off], Rs` (R103). -/
def execStSp (off : Word) (rs : Reg) (s : State) : Outcome :=
  storeReg rs 2 (eaSp off s) s

end Sys2Proof.Machine
end

