-- ==== Sys2Proof/Machine/StackOps.lean ====
section
/-! DEFINITION. PUSH, POP, SSP and GSP (spec/42_stack.md), over the primitives `push` and `pop`. -/

namespace Sys2Proof.Machine

/-- `PUSH imm` (R113). -/
def execPushImm (imm : Word) (s : State) : Outcome :=
  finish s ((push (srcImm imm s) s).map (advance 2))

/-- `PUSH Rs` (R113). -/
def execPushReg (rs : Reg) (s : State) : Outcome :=
  finish s ((push (srcReg rs s) s).map (advance 1))

/-- `POP Rd` (R114). -/
def execPop (rd : Reg) (s : State) : Outcome :=
  finish s ((pop s).map fun vt => advance 1 (vt.2.setReg rd vt.1))

/-- `SSP imm` (R115). -/
def execSspImm (imm : Word) (s : State) : Outcome :=
  commit (advance 2 (s.setSp (srcImm imm s)))

/-- `SSP Rs` (R115). -/
def execSspReg (rs : Reg) (s : State) : Outcome :=
  commit (advance 1 (s.setSp (srcReg rs s)))

/-- `GSP Rd` (R116). -/
def execGsp (rd : Reg) (s : State) : Outcome :=
  commit (advance 1 (s.setReg rd s.sp))

end Sys2Proof.Machine
end

