-- ==== Sys2Proof/Machine/Dispatch.lean ====
section
/-! DEFINITION. The dispatch: "an exhaustive match over a closed enumeration of opcodes" (R140), one arm a form. -/

namespace Sys2Proof.Machine

def exec (i : Instr) (s : State) : Host.Outcome State Fault Refusal :=
  match i with
  | .halt => Sys2Proof.Machine.execHalt s
  | .addImm rd imm => Sys2Proof.Machine.execAddImm rd imm s
  | .addReg rd rs => Sys2Proof.Machine.execAddReg rd rs s
  | .subImm rd imm => Sys2Proof.Machine.execSubImm rd imm s
  | .subReg rd rs => Sys2Proof.Machine.execSubReg rd rs s
  | .mulImm rd imm => Sys2Proof.Machine.execMulImm rd imm s
  | .mulReg rd rs => Sys2Proof.Machine.execMulReg rd rs s
  | .divImm rd imm => Sys2Proof.Machine.execDivImm rd imm s
  | .divReg rd rs => Sys2Proof.Machine.execDivReg rd rs s
  | .modImm rd imm => Sys2Proof.Machine.execModImm rd imm s
  | .modReg rd rs => Sys2Proof.Machine.execModReg rd rs s
  | .andImm rd imm => Sys2Proof.Machine.execAndImm rd imm s
  | .andReg rd rs => Sys2Proof.Machine.execAndReg rd rs s
  | .orImm rd imm => Sys2Proof.Machine.execOrImm rd imm s
  | .orReg rd rs => Sys2Proof.Machine.execOrReg rd rs s
  | .xorImm rd imm => Sys2Proof.Machine.execXorImm rd imm s
  | .xorReg rd rs => Sys2Proof.Machine.execXorReg rd rs s
  | .shlImm rd imm => Sys2Proof.Machine.execShlImm rd imm s
  | .shlReg rd rs => Sys2Proof.Machine.execShlReg rd rs s
  | .shrImm rd imm => Sys2Proof.Machine.execShrImm rd imm s
  | .shrReg rd rs => Sys2Proof.Machine.execShrReg rd rs s
  | .cmpImm rd imm => Sys2Proof.Machine.execCmpImm rd imm s
  | .cmpReg rd rs => Sys2Proof.Machine.execCmpReg rd rs s
  | .movImm rd imm => Sys2Proof.Machine.execMovImm rd imm s
  | .movReg rd rs => Sys2Proof.Machine.execMovReg rd rs s
  | .ldInd rd rs => Sys2Proof.Machine.execLdInd rd rs s
  | .ldDir rd addr => Sys2Proof.Machine.execLdDir rd addr s
  | .ldSp rd off => Sys2Proof.Machine.execLdSp rd off s
  | .stInd rd rs => Sys2Proof.Machine.execStInd rd rs s
  | .stDir addr rs => Sys2Proof.Machine.execStDir addr rs s
  | .stSp off rs => Sys2Proof.Machine.execStSp off rs s
  | .pushImm imm => Sys2Proof.Machine.execPushImm imm s
  | .pushReg rs => Sys2Proof.Machine.execPushReg rs s
  | .pop rd => Sys2Proof.Machine.execPop rd s
  | .sspImm imm => Sys2Proof.Machine.execSspImm imm s
  | .sspReg rs => Sys2Proof.Machine.execSspReg rs s
  | .gsp rd => Sys2Proof.Machine.execGsp rd s
  | .jmpImm imm => Sys2Proof.Machine.execJmpImm imm s
  | .jmpReg rs => Sys2Proof.Machine.execJmpReg rs s
  | .jzImm imm => Sys2Proof.Machine.execJzImm imm s
  | .jzReg rs => Sys2Proof.Machine.execJzReg rs s
  | .jnzImm imm => Sys2Proof.Machine.execJnzImm imm s
  | .jnzReg rs => Sys2Proof.Machine.execJnzReg rs s
  | .jcImm imm => Sys2Proof.Machine.execJcImm imm s
  | .jcReg rs => Sys2Proof.Machine.execJcReg rs s
  | .jncImm imm => Sys2Proof.Machine.execJncImm imm s
  | .jncReg rs => Sys2Proof.Machine.execJncReg rs s
  | .jsImm imm => Sys2Proof.Machine.execJsImm imm s
  | .jsReg rs => Sys2Proof.Machine.execJsReg rs s
  | .jnsImm imm => Sys2Proof.Machine.execJnsImm imm s
  | .jnsReg rs => Sys2Proof.Machine.execJnsReg rs s
  | .joImm imm => Sys2Proof.Machine.execJoImm imm s
  | .joReg rs => Sys2Proof.Machine.execJoReg rs s
  | .jnoImm imm => Sys2Proof.Machine.execJnoImm imm s
  | .jnoReg rs => Sys2Proof.Machine.execJnoReg rs s
  | .callImm imm => Sys2Proof.Machine.execCallImm imm s
  | .callReg rs => Sys2Proof.Machine.execCallReg rs s
  | .ret => Sys2Proof.Machine.execRet s

end Sys2Proof.Machine
end

