-- ==== Sys2Proof/Machine/Cycle.lean ====
section
/-! DEFINITION. The body of `Step` (spec/60_exceptions.md R140), its report (R142), and the placing of an instruction
where the next step fetches it. -/

namespace Sys2Proof.Machine

/-- `decode(M, pc)` with `W = M`, `L = MEM_WORDS` (R140). -/
def decodeAtPc (s : State) : DecodeResult Instr := decodeWith (fetchWord s) s.pc.toNat

/-- Fetch, decode and execute one instruction (R140): a failed decode raises its fault (R144, R145, R146). -/
def fetchExecute (s : State) : Outcome :=
  match decodeAtPc s with
  | .err e => raise (faultOfDecode e) s
  | .ok i _ => exec i s

/-- `Step` (R140): rejected in Halted and Faulted with no state change (R142); a Ready core behaves as a Running one
and leaves Ready when it commits or faults (R141). -/
def stepOnce (s : State) : Outcome :=
  if s.cfg.wf then
    match s.run with
    | .halted | .faulted => .next s
    | .ready | .running => fetchExecute s
  else .refused .illFormedConfig

/-- What `Step` returns (R142). -/
inductive StepResult where
  | ok
  | halted
  | fault (f : FaultCause)
  | rejected
deriving DecidableEq, Repr

/-- The report of a step from `s` that ended in `t` (R142). -/
def reportOf (s t : State) : StepResult :=
  match s.run with
  | .halted | .faulted => .rejected
  | .ready | .running =>
    match t.run, t.cause with
    | .halted, _ => .halted
    | .faulted, some f => .fault f
    | _, _ => .ok

/-- The report of the next step; `none` only for a state whose `Config` is refused. -/
def stepReport (s : State) : Option StepResult :=
  match stepOnce s with
  | .next t => some (reportOf s t)
  | .fault _ => none
  | .refused _ => none

/-- Stores Words from address `a` on, as far as the addresses are valid. -/
def storeWords (s : State) (a : Nat) : List Word → Memory
  | [] => s.mem
  | w :: ws => if a < s.cfg.memWords then (storeWords s (a + 1) ws).writeWord a w else storeWords s (a + 1) ws

end Sys2Proof.Machine
end

