-- ==== Sys2Proof/Machine/Step.lean ====
section
/-! DEFINITION. One step of the machine. -/

namespace Sys2Proof.Machine

/-- `Step` (R140, R142). -/
def step (s : State) : Host.Outcome State Fault Refusal := stepOnce s

/-- `s` with the instruction of bits `w` at `M[pc]`, `M[pc + 1]` (an operand Word the table gives no bits is 0): the
next step of a Ready or Running core fetches and runs it. Stands for a `Load` (log entry 2). -/
def State.withFetchWord (s : State) (nbits w : Nat) : State :=
  { s with mem := storeWords s s.pc.toNat (tableWords nbits w) }

end Sys2Proof.Machine
end

