-- ==== Sys2Proof/Machine/HostOps.lean ====
section
/-! DEFINITION. The host's operations between steps (spec/00_scope.md R4): `Reset`, `Load`, the construction of a core,
and `Inspect`. `Step` is in Cycle.lean. -/

namespace Sys2Proof.Machine

/-- `Reset` (R171): registers, `sp` and flags zeroed, `pc <- entry`, Ready, no cause; memory and `entry` are kept. -/
def resetCore (s : State) : State :=
  { s with regs := RegFile.zero, sp := 0, flags := Flags.zero, pc := s.entry, run := .ready, cause := none }

/-- The result of `Load`. -/
inductive LoadResult where
  | ok (s : State)
  /-- The image is rejected and nothing is created or changed (R163, R173). -/
  | imageFormatError
deriving DecidableEq, Repr

/-- `Load(image)` (R173); the image is header `format-version, entry-point, code-word-count`, then the code (R172). -/
def loadImage (s : State) (image : List Word) : LoadResult :=
  match image with
  | version :: entryPoint :: count :: code =>
    if version ≠ s.cfg.formatVersion then .imageFormatError
    else if code.length ≠ count.toNat then .imageFormatError
    else if count.toNat > s.cfg.memWords then .imageFormatError
    else .ok (resetCore { s with mem := Memory.ofWords 0 code, entry := entryPoint })
  | _ => .imageFormatError

/-- A core comes into being with a `Config` and an image (R170). A `Config` that breaks a constraint of R6 gives no
core. The fields that `loadImage` overwrites are blank here: "a core without an image does not exist" (R24). -/
def construct (c : Config) (image : List Word) : Option State :=
  if c.wf then
    match loadImage { State.reset with cfg := c } image with
    | .ok s => some s
    | .imageFormatError => none
  else none

/-- What `Inspect` shows beside memory (R161); `entry` because R25 says it is "visible to `Inspect`" (log entry 10). -/
structure Inspection where
  regs : RegFile
  pc : Word
  sp : Word
  flags : Flags
  run : RunState
  cause : Option FaultCause
  entry : Word
deriving DecidableEq, Repr

/-- `Inspect` (R161): a pure read, in every run state. -/
def inspect (s : State) : Inspection :=
  { regs := s.regs, pc := s.pc, sp := s.sp, flags := s.flags, run := s.run, cause := s.cause,
    entry := s.entry }

/-- `Inspect` of `M[a]`, for `a < MEM_WORDS` (R161). -/
def inspectWord (s : State) (a : Nat) : Option Word :=
  if a < s.cfg.memWords then some (s.mem.readWord a) else none

end Sys2Proof.Machine
end

