-- ==== Sys2Proof/Safety.lean ====
section
/-! DEFINITION. The terms that statements use: the invariant of the machine, its reachable states, and what one
instruction changes and leaves unchanged (its frame). -/

namespace Sys2Proof.Machine

/-! ### The invariant and the reachable states -/

/-- The invariant: a legal `Config` (R6), memory in canonical form with no cell outside `M` (R19), and a latched cause
exactly in Faulted (R21). -/
abbrev State.Inv (s : State) : Prop :=
  s.cfg.wf = true ∧ s.mem.wf = true ∧ Memory.below (2 * s.cfg.memWords) s.mem = true ∧
    (s.cause.isSome = true ↔ s.run = .faulted)

/-- The states a core can be in: construction with an image, then `Step`, `Reset` and `Load` in any order (R4, R170). -/
inductive Reachable : State → Prop where
  | built (c : Config) (image : List Word) (s : State) (h : construct c image = some s) : Reachable s
  | stepped (s t : State) (hs : Reachable s) (h : step s = .next t) : Reachable t
  | reset (s : State) (hs : Reachable s) : Reachable (resetCore s)
  | loaded (s t : State) (image : List Word) (hs : Reachable s) (h : loadImage s image = .ok t) : Reachable t

/-- A core that executes on the next `Step`: Ready or Running (R20). -/
def State.Active (s : State) : Prop := s.run = .ready ∨ s.run = .running

/-! ### Frames -/

/-- The state after fault `f` at `s` (R150): only `run` and `cause` differ. -/
def faultedWith (f : FaultCause) (s : State) : State := { s with run := .faulted, cause := some f }

def KeepsRegs (s t : State) : Prop := ∀ q, t.regs.get q = s.regs.get q

def KeepsRegsBut (r : Reg) (s t : State) : Prop := ∀ q, q ≠ r → t.regs.get q = s.regs.get q

/-- Every byte of memory reads as before. -/
def KeepsMemory (s t : State) : Prop := ∀ b, t.mem.readByte b = s.mem.readByte b

/-- Every byte of memory reads as before, but for the two bytes of the Word at address `a`. -/
def KeepsMemoryBut (a : Nat) (s t : State) : Prop := ∀ b, b / 2 ≠ a → t.mem.readByte b = s.mem.readByte b

/-- The configuration, `entry` and `cause` are unchanged, and `run` only leaves Ready for Running (R20, R141). -/
def KeepsControl (s t : State) : Prop :=
  t.cfg = s.cfg ∧ t.entry = s.entry ∧ t.cause = s.cause ∧ t.run = s.run.started

/-- `pc <- trunc16(pc + len)` (R13). -/
def Advances (len : Nat) (s t : State) : Prop := t.pc = s.pc + BitVec.ofNat 16 len

/-- `s16(a) op s16(b)` does not fit in 16 signed bits. -/
def OutsideSigned (n : Int) : Prop := n < -32768 ∨ 32767 < n

/-! ### What an instruction completes with -/

/-- `i` completes at `s`: `x[rd]` is `v`, `Z` and `S` are those of `v` (R81), `C` and `V` as given; nothing else but `pc`. -/
def ComputesTo (i : Instr) (s : State) (rd : Reg) (len : Nat) (v : Word) (c o : Prop) : Prop :=
  ∃ t, exec i s = .next t ∧ t.regs.get rd = v ∧ KeepsRegsBut rd s t ∧
    (t.flags.z = true ↔ v = 0) ∧ t.flags.s = v.getLsbD 15 ∧ (t.flags.c = true ↔ c) ∧ (t.flags.v = true ↔ o) ∧
    t.sp = s.sp ∧ Advances len s t ∧ KeepsMemory s t ∧ KeepsControl s t

/-- `i` completes at `s`: `x[rd]` is `v`; nothing else but `pc`. -/
def SetsReg (i : Instr) (s : State) (rd : Reg) (len : Nat) (v : Word) : Prop :=
  ∃ t, exec i s = .next t ∧ t.regs.get rd = v ∧ KeepsRegsBut rd s t ∧ t.flags = s.flags ∧
    t.sp = s.sp ∧ Advances len s t ∧ KeepsMemory s t ∧ KeepsControl s t

/-- `i` completes at `s`: `sp` is `v`; nothing else but `pc`. -/
def SetsSp (i : Instr) (s : State) (len : Nat) (v : Word) : Prop :=
  ∃ t, exec i s = .next t ∧ t.sp = v ∧ KeepsRegs s t ∧ t.flags = s.flags ∧
    Advances len s t ∧ KeepsMemory s t ∧ KeepsControl s t

/-- `i` completes at `s`: `M[ea]` is `v`; nothing else but `pc`. -/
def Stores (i : Instr) (s : State) (len ea : Nat) (v : Word) : Prop :=
  ∃ t, exec i s = .next t ∧ t.mem.readWord ea = v ∧ KeepsMemoryBut ea s t ∧ KeepsRegs s t ∧ t.flags = s.flags ∧
    t.sp = s.sp ∧ Advances len s t ∧ KeepsControl s t

/-- `i` completes at `s`: it pushes `v` (slot `sp - 1`, which becomes `sp`) and `pc` becomes `target`; nothing else. -/
def Pushes (i : Instr) (s : State) (v target : Word) : Prop :=
  ∃ t, exec i s = .next t ∧ (t.sp.toNat : Int) = (s.sp.toNat : Int) - 1 ∧
    t.mem.readWord (s.sp.toNat - 1) = v ∧ KeepsMemoryBut (s.sp.toNat - 1) s t ∧ KeepsRegs s t ∧ t.flags = s.flags ∧
    t.pc = target ∧ KeepsControl s t

/-- `i` completes at `s`: `pc` becomes `target`; nothing else. -/
def JumpsTo (i : Instr) (s : State) (target : Word) : Prop :=
  ∃ t, exec i s = .next t ∧ t.pc = target ∧ KeepsRegs s t ∧ t.flags = s.flags ∧ t.sp = s.sp ∧
    KeepsMemory s t ∧ KeepsControl s t

/-- The slot a push uses, `sp - 1` on unbounded integers, is in the declared region (R110). -/
def PushSlot (s : State) : Prop :=
  (s.cfg.stackLo : Int) ≤ (s.sp.toNat : Int) - 1 ∧ (s.sp.toNat : Int) - 1 ≤ (s.cfg.stackHi : Int)

/-- The slot a pop uses, `sp`, is in the declared region (R110). -/
def PopSlot (s : State) : Prop := s.cfg.stackLo ≤ s.sp.toNat ∧ s.sp.toNat ≤ s.cfg.stackHi

/-! ### Which instruction reads, writes or jumps where -/

/-- `i` is a ST in any of its three modes, with effective address `ea` and stored Word `v` at `s` (R100, R103). -/
inductive StoreForm (s : State) : (i : Instr) → (ea : Nat) → (v : Word) → Prop where
  | ind (rd rs : Reg) : StoreForm s (.stInd rd rs) (eaInd rd s) (s.regs.get rs)
  | dir (addr : Word) (rs : Reg) : StoreForm s (.stDir addr rs) (eaDir addr s) (s.regs.get rs)
  | sp (off : Word) (rs : Reg) : StoreForm s (.stSp off rs) (eaSp off s) (s.regs.get rs)

/-- `i` is a LD in any of its three modes, with effective address `ea`, destination `rd` and length `len` (R100, R102). -/
inductive LoadForm (s : State) : (i : Instr) → (ea : Nat) → (rd : Reg) → (len : Nat) → Prop where
  | ind (rd rs : Reg) : LoadForm s (.ldInd rd rs) (eaInd rs s) rd 1
  | dir (rd : Reg) (addr : Word) : LoadForm s (.ldDir rd addr) (eaDir addr s) rd 2
  | sp (rd : Reg) (off : Word) : LoadForm s (.ldSp rd off) (eaSp off s) rd 2

/-- `i` writes the Word `v` to `M[a]` at `s`: a ST to a valid address, or a PUSH or CALL whose slot is in the region.
These are the instructions that write memory (R42). -/
inductive WritesWord (s : State) : (i : Instr) → (a : Nat) → (v : Word) → Prop where
  | store {i : Instr} {ea : Nat} {v : Word} (h : StoreForm s i ea v) (hea : ea < s.cfg.memWords) : WritesWord s i ea v
  | pushImm (imm : Word) (h : PushSlot s) : WritesWord s (.pushImm imm) (s.sp.toNat - 1) imm
  | pushReg (rs : Reg) (h : PushSlot s) : WritesWord s (.pushReg rs) (s.sp.toNat - 1) (s.regs.get rs)
  | callImm (imm : Word) (h : PushSlot s) : WritesWord s (.callImm imm) (s.sp.toNat - 1) (s.pc + 2)
  | callReg (rs : Reg) (h : PushSlot s) : WritesWord s (.callReg rs) (s.sp.toNat - 1) (s.pc + 1)

/-- An instruction of opcode `op` that commits at `s` sets `pc` itself (the table of R13). -/
def SetsPc (op : Op) (s : State) : Prop :=
  match op with
  | .jmp | .call | .ret => True
  | .jz => s.flags.z = true
  | .jnz => s.flags.z = false
  | .jc => s.flags.c = true
  | .jnc => s.flags.c = false
  | .js => s.flags.s = true
  | .jns => s.flags.s = false
  | .jo => s.flags.v = true
  | .jno => s.flags.v = false
  | .halt | .add | .sub | .mul | .div | .mod | .and | .or | .xor | .shl | .shr | .cmp | .mov | .ld | .st | .push | .pop
  | .ssp | .gsp => False

/-! ### Encodings as the instruction rules print them -/

/-- `rd<<5`. -/
def rdBits (r : Reg) : Word := r.field.setWidth 16 <<< 5

/-- `rs<<2`. -/
def rsBits (r : Reg) : Word := r.field.setWidth 16 <<< 2

/-- The two forms of a shape DS instruction: `base | rd<<5` then `imm`; `base | 0x0100 | rd<<5 | rs<<2`. -/
def EncodesDS (base : Word) (immForm : Reg → Word → Instr) (regForm : Reg → Reg → Instr) : Prop :=
  ∀ rd rs imm, encode (immForm rd imm) = [base ||| rdBits rd, imm] ∧
    encode (regForm rd rs) = [base ||| 0x0100 ||| rdBits rd ||| rsBits rs]

/-- The two forms of a shape S instruction: `base` then `imm`; `base | 0x0100 | rs<<2`. -/
def EncodesS (base : Word) (immForm : Word → Instr) (regForm : Reg → Instr) : Prop :=
  ∀ rs imm, encode (immForm imm) = [base, imm] ∧ encode (regForm rs) = [base ||| 0x0100 ||| rsBits rs]

/-- `P` of both forms of a shape DS instruction, with its destination, length and `src_value` (R62), at every state. -/
def BothDS (immForm : Reg → Word → Instr) (regForm : Reg → Reg → Instr)
    (P : Instr → Reg → Nat → Word → State → Prop) : Prop :=
  ∀ rd s, (∀ imm, P (immForm rd imm) rd 2 imm s) ∧ (∀ rs, P (regForm rd rs) rd 1 (s.regs.get rs) s)

/-- `P` of both forms of a shape S instruction, with its length and `src_value` (R62), at every state. -/
def BothS (immForm : Word → Instr) (regForm : Reg → Instr) (P : Instr → Nat → Word → State → Prop) : Prop :=
  ∀ s, (∀ imm, P (immForm imm) 2 imm s) ∧ (∀ rs, P (regForm rs) 1 (s.regs.get rs) s)

end Sys2Proof.Machine
end

