-- ==== Sys2Proof/Certificates/Slice0/Obligations.lean ====
section
/-! DEFINITION. The statements for the provers. Each docstring says which rule of spec/ it formalises. -/

open Sys2Proof Sys2Proof.Machine

/-! ### The codec -/

/-- For every instruction i of the 58 forms, with every register and every immediate, and every Word sequence W and
offset off such that the Words of encode i stand in W at off, off+1, ..., decode W off is ok(i, length of encode
i). (R68, first direction of the round-trip law.) The spec marks this law as derived from R63 and R67. [derived:
30_encoding.md R68, 30_encoding.md R63, 30_encoding.md R67] -/
def Obligations.DecodeInvertsEncode : Prop :=
  ∀ (i : Instr) (ws : List Word) (off : Nat),
    (∀ k, k < (encode i).length → ws[off + k]? = (encode i)[k]?) → decode ws off = .ok i (encode i).length

/-- Whenever decode W off = ok(i, n), the record of i is well-formed and encode i is exactly the n Words W[off],
..., W[off+n-1]; so no bit of an accepted encoding is dropped and decode is injective on what it accepts. (R69,
second direction.) The spec marks this law as derived from R59, R63 and R67. [derived: 30_encoding.md R69,
30_encoding.md R59, 30_encoding.md R63, 30_encoding.md R67] -/
def Obligations.EncodeInvertsDecode : Prop :=
  ∀ (ws : List Word) (off n : Nat) (i : Instr), decode ws off = .ok i n →
    i.record.wf = true ∧ encode i = (ws.drop off).take n ∧ (encode i).length = n

/-- A decoded record of R60 is well-formed iff there is a form of the opcode table whose record it is, and that form
is unique; encode of a record answers the Words of that form, and IllegalOperand for every record that is not
well-formed. [derived: 30_encoding.md R57, 30_encoding.md R60, 30_encoding.md R67] -/
def Obligations.WellFormedRecordsAreTheForms : Prop :=
  ∀ x : Instruction,
    (x.wf = true ↔ ∃ i : Instr, i.record = x) ∧ (∀ i j : Instr, i.record = x → j.record = x → i = j) ∧
    (∀ i : Instr, i.record = x → encodeRecord x = .ok (encode i)) ∧
    (x.wf = false → encodeRecord x = .err .illegalOperand)

/-- For every sequence W and offset off with W[off] = w: decode W off = err IllegalOpcode iff w is in 0x0000..0x07FF
or in 0xF800..0xFFFF, whatever its other bits and whatever follows it. (R64.) [stated: R64] -/
def Obligations.IllegalOpcodeIffReservedOpcode : Prop :=
  ∀ (ws : List Word) (off : Nat) (w : Word), ws[off]? = some w →
    (decode ws off = .err .illegalOpcode ↔ w.toNat ≤ 0x07FF ∨ 0xF800 ≤ w.toNat)

/-- For every sequence W and offset off with W[off] = w: decode W off = err IllegalOperand iff the opcode is defined
(w in 0x0800..0xF7FF) and w is the first Word of no instruction: a mode the opcode does not allow, or a nonzero
must-be-zero field. [derived: 30_encoding.md R57, 30_encoding.md R59, 30_encoding.md R65, 30_encoding.md R71] -/
def Obligations.IllegalOperandIffNoForm : Prop :=
  ∀ (ws : List Word) (off : Nat) (w : Word), ws[off]? = some w →
    (decode ws off = .err .illegalOperand ↔
      0x07FF < w.toNat ∧ w.toNat < 0xF800 ∧ ¬ ∃ i : Instr, (encode i).head? = some w)

/-- decode W off = err OutOfRange iff off is not below L, or the sequence ends at off with the first Word of a two-
Word instruction there (off + 1, an integer sum, is not below L). (R66; that the core turns it into
MemoryOutOfBounds is the last clause.) [stated: R66] -/
def Obligations.OutOfRangeIffNeededWordMissing : Prop :=
  (∀ (ws : List Word) (off : Nat), decode ws off = .err .outOfRange ↔
      (ws.length ≤ off ∨ (ws.length ≤ off + 1 ∧
        ∃ i : Instr, (encode i).length = 2 ∧ ws[off]? = (encode i).head?))) ∧
    faultOfDecode .outOfRange = .memoryOutOfBounds

/-- Whenever decode W off = ok(i, n): n = 2 iff the mode field (bits 10..8) of W[off] is 0, 3 or 4, and n = 1 iff it
is 1 or 2. (R54.) [stated: R54] -/
def Obligations.LengthByModeField : Prop :=
  ∀ (ws : List Word) (off n : Nat) (i : Instr), decode ws off = .ok i n →
    ∃ w, ws[off]? = some w ∧ (n = 2 ↔ w.toNat / 256 % 8 ∈ [0, 3, 4]) ∧ (n = 1 ↔ w.toNat / 256 % 8 ∈ [1, 2])

/-- A sanity statement on fixed Words, one or two of each family: 6800 0005 is MOV R0, 5; 1104 is ADD R0, R1; 18E0
FFFF is SUB R7, 0xFFFF; 7460 FFFF is LD R3, [SP-1]; 7AAC is ST [R5], R3; 8118 is PUSH R6; 89C0 is POP R6; 9980
is GSP R4; B000 0004 is JNZ 0x0004; E90C is CALL R3; F100 is RET; 0900 is HALT. [derived: 30_encoding.md section
10, 95_test_vectors.md section 2.1] -/
def Obligations.WrittenOutWordsDecode : Prop :=
  decode [0x6800, 0x0005] 0 = .ok (.movImm .r0 5) 2 ∧ decode [0x1104] 0 = .ok (.addReg .r0 .r1) 1 ∧
    decode [0x18E0, 0xFFFF] 0 = .ok (.subImm .r7 0xFFFF) 2 ∧ decode [0x7460, 0xFFFF] 0 = .ok (.ldSp .r3 0xFFFF) 2 ∧
    decode [0x7AAC] 0 = .ok (.stInd .r5 .r3) 1 ∧ decode [0x8118] 0 = .ok (.pushReg .r6) 1 ∧
    decode [0x89C0] 0 = .ok (.pop .r6) 1 ∧ decode [0x9980] 0 = .ok (.gsp .r4) 1 ∧
    decode [0xB000, 0x0004] 0 = .ok (.jnzImm 4) 2 ∧ decode [0xE90C] 0 = .ok (.callReg .r3) 1 ∧
    decode [0xF100] 0 = .ok .ret 1 ∧ decode [0x0900] 0 = .ok .halt 1

/-! ### Arithmetic and logic -/

/-- ADD in both forms has the encoding of R82 and completes at every state: x[rd] is (a + b) mod 65536, Z and S are
those of the result, C iff a + b >= 65536, V iff s16(a) + s16(b) is outside -32768..32767; no other register, no
memory, sp, entry or cause changes; pc advances by the length. The three forms of V that R82 calls equivalent
are equivalent. [stated: R82] -/
def Obligations.AddSumCarryOverflow : Prop :=
  EncodesDS 0x1000 .addImm .addReg ∧
    (BothDS .addImm .addReg fun i rd len b s =>
      ComputesTo i s rd len (BitVec.ofNat 16 ((s.regs.get rd).toNat + b.toNat))
        (65536 ≤ (s.regs.get rd).toNat + b.toNat) (OutsideSigned (s16 (s.regs.get rd) + s16 b))) ∧
    (∀ a b r : Word, r = a + b →
      ((a.getLsbD 15 = b.getLsbD 15 ∧ r.getLsbD 15 ≠ a.getLsbD 15) ↔ OutsideSigned (s16 a + s16 b)) ∧
      ((a ^^^ r) &&& (b ^^^ r) &&& 0x8000 ≠ 0 ↔ OutsideSigned (s16 a + s16 b)))

/-- SUB in both forms has the encoding of R83 and completes at every state: x[rd] is (a - b) mod 65536, Z and S
those of the result, C iff a < b unsigned (the borrow), V iff s16(a) - s16(b) is outside -32768..32767; nothing
else but pc changes. The forms of V that R83 calls equivalent are equivalent. [stated: R83] -/
def Obligations.SubDifferenceBorrowOverflow : Prop :=
  EncodesDS 0x1800 .subImm .subReg ∧
    (BothDS .subImm .subReg fun i rd len b s =>
      ComputesTo i s rd len (trunc16 (((s.regs.get rd).toNat : Int) - b.toNat))
        ((s.regs.get rd).toNat < b.toNat) (OutsideSigned (s16 (s.regs.get rd) - s16 b))) ∧
    (∀ a b r : Word, r = trunc16 ((a.toNat : Int) - b.toNat) →
      ((a.getLsbD 15 ≠ b.getLsbD 15 ∧ r.getLsbD 15 ≠ a.getLsbD 15) ↔ OutsideSigned (s16 a - s16 b)) ∧
      ((a ^^^ b) &&& (a ^^^ r) &&& 0x8000 ≠ 0 ↔ OutsideSigned (s16 a - s16 b)))

/-- MUL in both forms has the encoding of R84 and completes at every state: x[rd] is the low 16 bits of a * b, Z and
S those of the result, C iff the unsigned product is above 0xFFFF, V iff the signed product is outside
-32768..32767; nothing else but pc changes. The low 16 bits are the same for the signed product. [stated: R84] -/
def Obligations.MulLowHalfAndFit : Prop :=
  EncodesDS 0x2000 .mulImm .mulReg ∧
    (BothDS .mulImm .mulReg fun i rd len b s =>
      ComputesTo i s rd len (BitVec.ofNat 16 ((s.regs.get rd).toNat * b.toNat))
        (65536 ≤ (s.regs.get rd).toNat * b.toNat) (OutsideSigned (s16 (s.regs.get rd) * s16 b))) ∧
    (∀ a b : Word, trunc16 (s16 a * s16 b) = BitVec.ofNat 16 (a.toNat * b.toNat))

/-- DIV in both forms has the encoding of R85. With a nonzero divisor it completes at every state: x[rd] is the
unsigned floor quotient, Z and S those of the result, C and V cleared, nothing else but pc changes. With divisor
0 it faults with DivisionByZero and only run and cause change. [stated: R85] -/
def Obligations.DivQuotientOrFault : Prop :=
  EncodesDS 0x2800 .divImm .divReg ∧
    (BothDS .divImm .divReg fun i rd len b s =>
      (b ≠ 0 → ComputesTo i s rd len (BitVec.ofNat 16 ((s.regs.get rd).toNat / b.toNat)) False False) ∧
      (b = 0 → exec i s = .next (faultedWith .divisionByZero s)))

/-- MOD in both forms has the encoding of R86. With a nonzero divisor it completes at every state: x[rd] is the
unsigned remainder, Z and S those of the result, C and V cleared, nothing else but pc changes; the remainder is
below the divisor and a == (a div b) * b + r. With divisor 0 it faults with DivisionByZero and only run and
cause change. [stated: R86] -/
def Obligations.ModRemainderOrFault : Prop :=
  EncodesDS 0x3000 .modImm .modReg ∧
    (BothDS .modImm .modReg fun i rd len b s =>
      (b ≠ 0 → ComputesTo i s rd len (BitVec.ofNat 16 ((s.regs.get rd).toNat % b.toNat)) False False ∧
        (BitVec.ofNat 16 ((s.regs.get rd).toNat % b.toNat)).toNat < b.toNat ∧
        (s.regs.get rd).toNat = (s.regs.get rd).toNat / b.toNat * b.toNat +
          (BitVec.ofNat 16 ((s.regs.get rd).toNat % b.toNat)).toNat) ∧
      (b = 0 → exec i s = .next (faultedWith .divisionByZero s)))

/-- AND, OR and XOR in both forms have the encodings of R87 to R89 and complete at every state: x[rd] is the bitwise
result, Z and S those of the result, C and V cleared; nothing else but pc changes. [stated: R87, R88, R89] -/
def Obligations.LogicBitwise : Prop :=
  EncodesDS 0x3800 .andImm .andReg ∧ EncodesDS 0x4000 .orImm .orReg ∧ EncodesDS 0x4800 .xorImm .xorReg ∧
    (BothDS .andImm .andReg fun i rd len b s => ComputesTo i s rd len (s.regs.get rd &&& b) False False) ∧
    (BothDS .orImm .orReg fun i rd len b s => ComputesTo i s rd len (s.regs.get rd ||| b) False False) ∧
    (BothDS .xorImm .xorReg fun i rd len b s => ComputesTo i s rd len (s.regs.get rd ^^^ b) False False)

/-- SHL in both forms has the encoding of R90 and completes at every state: x[rd] is a shifted left by the whole
source value n (which is trunc16(a * 2^n), and 0 when n >= 16), Z and S those of the result, C iff 1 <= n <= 16
and a[16-n] is 1 (which is bit 16 of a * 2^n), V cleared; nothing else but pc changes. [stated: R90] -/
def Obligations.ShlByWholeCount : Prop :=
  EncodesDS 0x5000 .shlImm .shlReg ∧
    (BothDS .shlImm .shlReg fun i rd len n s =>
      ComputesTo i s rd len (s.regs.get rd <<< n.toNat)
        (1 ≤ n.toNat ∧ n.toNat ≤ 16 ∧ (s.regs.get rd).getLsbD (16 - n.toNat) = true) False) ∧
    (∀ (a : Word) (n : Nat), a <<< n = BitVec.ofNat 16 (a.toNat * 2 ^ n) ∧ (16 ≤ n → a <<< n = 0) ∧
      ((a.toNat * 2 ^ n).testBit 16 = true ↔ 1 ≤ n ∧ n ≤ 16 ∧ a.getLsbD (16 - n) = true))

/-- SHR in both forms has the encoding of R91 and completes at every state: x[rd] is a shifted right with zero fill
by the whole source value n (a div 2^n, and 0 when n >= 16), Z and S those of the result, C iff 1 <= n <= 16 and
a[n-1] is 1 (which is ((2 * a) div 2^n) mod 2), V cleared; nothing else but pc changes. [stated: R91] -/
def Obligations.ShrByWholeCount : Prop :=
  EncodesDS 0x5800 .shrImm .shrReg ∧
    (BothDS .shrImm .shrReg fun i rd len n s =>
      ComputesTo i s rd len (s.regs.get rd >>> n.toNat)
        (1 ≤ n.toNat ∧ n.toNat ≤ 16 ∧ (s.regs.get rd).getLsbD (n.toNat - 1) = true) False) ∧
    (∀ (a : Word) (n : Nat), a >>> n = BitVec.ofNat 16 (a.toNat / 2 ^ n) ∧ (16 ≤ n → a >>> n = 0) ∧
      (2 * a.toNat / 2 ^ n % 2 = 1 ↔ 1 ≤ n ∧ n ≤ 16 ∧ a.getLsbD (n - 1) = true))

/-- CMP in both forms has the encoding of R92 and completes at every state with the flags of a - b: Z iff a = b, C
iff a < b unsigned, S is bit 15 of the difference, V iff the signed difference does not fit; S and V differ iff
s16(a) < s16(b). No register is written and nothing else but pc changes. The clause on S and V is the sentence
of R92 that the spec marks as derived from R83. [derived: 40_arithmetic_logic.md R92, 40_arithmetic_logic.md
R83] -/
def Obligations.CmpOrdersItsOperands : Prop :=
  EncodesDS 0x6000 .cmpImm .cmpReg ∧
    (BothDS .cmpImm .cmpReg fun i rd len b s => ∃ t, exec i s = .next t ∧
      (t.flags.z = true ↔ s.regs.get rd = b) ∧ (t.flags.c = true ↔ (s.regs.get rd).toNat < b.toNat) ∧
      t.flags.s = (trunc16 (((s.regs.get rd).toNat : Int) - b.toNat)).getLsbD 15 ∧
      (t.flags.v = true ↔ OutsideSigned (s16 (s.regs.get rd) - s16 b)) ∧
      (t.flags.s ≠ t.flags.v ↔ s16 (s.regs.get rd) < s16 b) ∧
      KeepsRegs s t ∧ t.sp = s.sp ∧ Advances len s t ∧ KeepsMemory s t ∧ KeepsControl s t)

/-! ### Move and memory -/

/-- MOV in both forms has the encoding of R101 and completes at every state: x[rd] is the source value (ext or
x[rs]); no flag, other register, memory byte, sp, entry or cause changes; pc advances by the length. [stated:
R101] -/
def Obligations.MovCopiesTheSource : Prop :=
  EncodesDS 0x6800 .movImm .movReg ∧
    (BothDS .movImm .movReg fun i rd len v s => SetsReg i s rd len v)

/-- LD in its three modes has the encodings of R102. With ea = x[rs], the trailing Word, or (sp + ext) mod 65536: if
ea < MEM_WORDS it completes, x[rd] is M[ea] and nothing else but pc changes; if ea >= MEM_WORDS it faults with
MemoryOutOfBounds and only run and cause change. [stated: R102] -/
def Obligations.LdReadsEffectiveAddress : Prop :=
  ∀ (s : State) (rd rs : Reg) (x : Word),
    encode (.ldInd rd rs) = [0x7200 ||| rdBits rd ||| rsBits rs] ∧ encode (.ldDir rd x) = [0x7300 ||| rdBits rd, x] ∧
    encode (.ldSp rd x) = [0x7400 ||| rdBits rd, x] ∧
    eaInd rs s = (s.regs.get rs).toNat ∧ eaDir x s = x.toNat ∧ eaSp x s = (s.sp.toNat + x.toNat) % 65536 ∧
    (eaInd rs s < s.cfg.memWords → SetsReg (.ldInd rd rs) s rd 1 (s.mem.readWord (eaInd rs s))) ∧
    (eaDir x s < s.cfg.memWords → SetsReg (.ldDir rd x) s rd 2 (s.mem.readWord (eaDir x s))) ∧
    (eaSp x s < s.cfg.memWords → SetsReg (.ldSp rd x) s rd 2 (s.mem.readWord (eaSp x s))) ∧
    (s.cfg.memWords ≤ eaInd rs s → exec (.ldInd rd rs) s = .next (faultedWith .memoryOutOfBounds s)) ∧
    (s.cfg.memWords ≤ eaDir x s → exec (.ldDir rd x) s = .next (faultedWith .memoryOutOfBounds s)) ∧
    (s.cfg.memWords ≤ eaSp x s → exec (.ldSp rd x) s = .next (faultedWith .memoryOutOfBounds s))

/-- ST in its three modes has the encodings of R103. In every state whose memory is in canonical form, with ea =
x[rd], the trailing Word, or (sp + ext) mod 65536: if ea < MEM_WORDS it completes, M[ea] is x[rs], every byte of
every other Word, every register, flag and sp are unchanged and pc advances; if ea >= MEM_WORDS it faults with
MemoryOutOfBounds and only run and cause change. [stated: R103] -/
def Obligations.StWritesEffectiveAddress : Prop :=
  ∀ (s : State) (rd rs : Reg) (x : Word), s.mem.wf = true →
    encode (.stInd rd rs) = [0x7A00 ||| rdBits rd ||| rsBits rs] ∧ encode (.stDir x rs) = [0x7B00 ||| rsBits rs, x] ∧
    encode (.stSp x rs) = [0x7C00 ||| rsBits rs, x] ∧
    eaInd rd s = (s.regs.get rd).toNat ∧ eaDir x s = x.toNat ∧ eaSp x s = (s.sp.toNat + x.toNat) % 65536 ∧
    (eaInd rd s < s.cfg.memWords → Stores (.stInd rd rs) s 1 (eaInd rd s) (s.regs.get rs)) ∧
    (eaDir x s < s.cfg.memWords → Stores (.stDir x rs) s 2 (eaDir x s) (s.regs.get rs)) ∧
    (eaSp x s < s.cfg.memWords → Stores (.stSp x rs) s 2 (eaSp x s) (s.regs.get rs)) ∧
    (s.cfg.memWords ≤ eaInd rd s → exec (.stInd rd rs) s = .next (faultedWith .memoryOutOfBounds s)) ∧
    (s.cfg.memWords ≤ eaDir x s → exec (.stDir x rs) s = .next (faultedWith .memoryOutOfBounds s)) ∧
    (s.cfg.memWords ≤ eaSp x s → exec (.stSp x rs) s = .next (faultedWith .memoryOutOfBounds s))

/-- In every state whose memory is in canonical form: MemWrite at a valid address answers a state in which reading
that address gives the value written and reading any other address gives what it gave before, and whose memory
is in canonical form again; MemRead and MemWrite at an address >= MEM_WORDS raise MemoryOutOfBounds. The
canonical form, as hypothesis and as clause, is the model's choice (log entry 3) and not in these rules.
[derived: 20_memory.md R31, 20_memory.md R33, 20_memory.md R34, notes/assumptions/3.md] -/
def Obligations.MemReadAfterMemWrite : Prop :=
  ∀ (s : State) (a : Nat) (v : Word), s.mem.wf = true →
    (a < s.cfg.memWords → ∃ t, memWrite s a v = .ok t ∧ memRead t a = .ok v ∧ t.mem.wf = true ∧
      ∀ b, b ≠ a → memRead t b = memRead s b) ∧
    (s.cfg.memWords ≤ a → memWrite s a v = .error .memoryOutOfBounds ∧ memRead s a = .error .memoryOutOfBounds)

/-- In every state with canonical memory, if a ST in any of its three modes, whose effective address ea is valid,
completes to t, then every LD in any of its three modes whose effective address at t is ea completes at t,
leaves the stored Word (the old x[rs]) in its destination, and changes nothing else but pc. [derived:
20_memory.md R34, 20_memory.md R40, 41_move_memory.md R100, 41_move_memory.md R102, 41_move_memory.md R103] -/
def Obligations.StoreThenLoadGivesTheWord : Prop :=
  ∀ (s t : State) (i j : Instr) (ea len : Nat) (v : Word) (rd : Reg), s.mem.wf = true → StoreForm s i ea v →
    ea < s.cfg.memWords → exec i s = .next t → LoadForm t j ea rd len → SetsReg j t rd len v

/-- In a state that satisfies the invariant and may step, if the Words at pc decode to an instruction that writes
the Word v to M[a] (a ST in any mode to a valid address, a PUSH or a CALL in either form whose slot is in the
region; also when a is pc or pc + 1, the instruction itself), then the step completes as decoded, and afterwards
fetch at a gives v, while fetch at every other address gives what it gave before. The spec marks this rule as
derived from R34 and R140. [derived: 20_memory.md R42, 20_memory.md R34, 60_exceptions.md R140] -/
def Obligations.StoreIsSeenByTheNextFetch : Prop :=
  ∀ (s : State) (i : Instr) (n a : Nat) (v : Word), s.Inv → s.Active → decodeAtPc s = .ok i n → WritesWord s i a v →
    ∃ t, step s = .next t ∧ exec i s = .next t ∧ t.run = .running ∧ fetchWord t a = some v ∧
      ∀ b, b ≠ a → fetchWord t b = fetchWord s b

/-! ### The stack -/

/-- PUSH in both forms has the encoding of R113. In every state with canonical memory: if sp - 1 (unbounded) is in
[STACK_LO, STACK_HI] it completes, M[sp-1] is the source value, sp is sp - 1, no other byte, register or flag
changes and pc advances by the length; otherwise (always when sp = 0) it faults with StackOverflow and only run
and cause change. [stated: R113] -/
def Obligations.PushWritesTheSlotBelow : Prop :=
  EncodesS 0x8000 .pushImm .pushReg ∧
    (BothS .pushImm .pushReg fun i len v s => s.mem.wf = true →
      (PushSlot s → Pushes i s v (s.pc + BitVec.ofNat 16 len)) ∧
      (¬ PushSlot s → exec i s = .next (faultedWith .stackOverflow s))) ∧
    (∀ s : State, s.sp = 0 → ¬ PushSlot s)

/-- POP has the encoding of R114. In every state with a legal Config: if sp is in [STACK_LO, STACK_HI] it completes,
x[rd] is M[sp], sp is sp + 1, memory, the other registers and the flags are unchanged and pc advances by 1;
otherwise it faults with StackUnderflow and only run and cause change. [stated: R114] -/
def Obligations.PopReadsTheSlot : Prop :=
  ∀ (s : State) (rd : Reg), s.cfg.wf = true →
    encode (.pop rd) = [0x8900 ||| rdBits rd] ∧
    (PopSlot s → ∃ t, exec (.pop rd) s = .next t ∧ t.regs.get rd = s.mem.readWord s.sp.toNat ∧ KeepsRegsBut rd s t ∧
      t.sp.toNat = s.sp.toNat + 1 ∧ t.flags = s.flags ∧ Advances 1 s t ∧ KeepsMemory s t ∧ KeepsControl s t) ∧
    (¬ PopSlot s → exec (.pop rd) s = .next (faultedWith .stackUnderflow s))

/-- SSP in both forms and GSP have the encodings of R115 and R116 and complete at every state: SSP makes sp the
source value without any check, GSP makes x[rd] the value of sp; no flag, memory byte or other register changes
and pc advances by the length. [stated: R115, R116] -/
def Obligations.SspAndGspMoveTheStackPointer : Prop :=
  EncodesS 0x9000 .sspImm .sspReg ∧ (BothS .sspImm .sspReg fun i len v s => SetsSp i s len v) ∧
    (∀ (s : State) (rd : Reg), encode (.gsp rd) = [0x9900 ||| rdBits rd] ∧ SetsReg (.gsp rd) s rd 1 s.sp)

/-- In every state that satisfies the invariant and whose slot sp - 1 is in the region: after PUSH imm or PUSH Rs,
POP Rd completes, leaves the pushed value (imm, or the old x[rs]) in x[rd], sp as it was before the PUSH, and
every other register unchanged. [derived: 42_stack.md R110, 42_stack.md R111, 42_stack.md R112, 42_stack.md
R113, 42_stack.md R114] -/
def Obligations.PopReturnsWhatPushPushed : Prop :=
  BothS .pushImm .pushReg fun i _ v s => ∀ (t : State) (rd : Reg), s.Inv → PushSlot s → exec i s = .next t →
    ∃ u, exec (.pop rd) t = .next u ∧ u.regs.get rd = v ∧ u.sp = s.sp ∧ KeepsRegsBut rd s u

/-! ### Control flow -/

/-- JMP in both forms has the encoding of R121 and completes at every state: pc is the source value, whatever it is;
no register, flag, memory byte, sp, entry or cause changes. If the core may step, has a legal Config and the
target is >= MEM_WORDS, the next step faults with MemoryOutOfBounds, pc being the bad target. [stated: R121] -/
def Obligations.JmpSetsPc : Prop :=
  EncodesS 0xA000 .jmpImm .jmpReg ∧
    (BothS .jmpImm .jmpReg fun i _ target s => JumpsTo i s target ∧
      (s.cfg.wf = true → s.Active → s.cfg.memWords ≤ target.toNat → ∃ t, exec i s = .next t ∧ t.pc = target ∧
        step t = .next (faultedWith .memoryOutOfBounds t)))

/-- JZ and JNZ in both forms have the encodings of R122 and R123 and complete at every state: pc becomes the source
value if the flag Z has the value the instruction tests (JZ: 1, JNZ: 0), and otherwise the address of the next
instruction; no register, flag, memory byte or sp changes. [stated: R122, R123] -/
def Obligations.JzJnzTestZero : Prop :=
  EncodesS 0xA800 .jzImm .jzReg ∧ EncodesS 0xB000 .jnzImm .jnzReg ∧
    (BothS .jzImm .jzReg fun i len target s =>
      (s.flags.z = true → JumpsTo i s target) ∧ (s.flags.z = false → JumpsTo i s (s.pc + BitVec.ofNat 16 len))) ∧
    (BothS .jnzImm .jnzReg fun i len target s =>
      (s.flags.z = false → JumpsTo i s target) ∧ (s.flags.z = true → JumpsTo i s (s.pc + BitVec.ofNat 16 len)))

/-- JC and JNC in both forms have the encodings of R124 and R125 and complete at every state: pc becomes the source
value if the flag C has the value the instruction tests (JC: 1, JNC: 0), and otherwise the address of the next
instruction; no register, flag, memory byte or sp changes. [stated: R124, R125] -/
def Obligations.JcJncTestCarry : Prop :=
  EncodesS 0xB800 .jcImm .jcReg ∧ EncodesS 0xC000 .jncImm .jncReg ∧
    (BothS .jcImm .jcReg fun i len target s =>
      (s.flags.c = true → JumpsTo i s target) ∧ (s.flags.c = false → JumpsTo i s (s.pc + BitVec.ofNat 16 len))) ∧
    (BothS .jncImm .jncReg fun i len target s =>
      (s.flags.c = false → JumpsTo i s target) ∧ (s.flags.c = true → JumpsTo i s (s.pc + BitVec.ofNat 16 len)))

/-- JS and JNS in both forms have the encodings of R126 and R127 and complete at every state: pc becomes the source
value if the flag S has the value the instruction tests (JS: 1, JNS: 0), and otherwise the address of the next
instruction; no register, flag, memory byte or sp changes. [stated: R126, R127] -/
def Obligations.JsJnsTestSign : Prop :=
  EncodesS 0xC800 .jsImm .jsReg ∧ EncodesS 0xD000 .jnsImm .jnsReg ∧
    (BothS .jsImm .jsReg fun i len target s =>
      (s.flags.s = true → JumpsTo i s target) ∧ (s.flags.s = false → JumpsTo i s (s.pc + BitVec.ofNat 16 len))) ∧
    (BothS .jnsImm .jnsReg fun i len target s =>
      (s.flags.s = false → JumpsTo i s target) ∧ (s.flags.s = true → JumpsTo i s (s.pc + BitVec.ofNat 16 len)))

/-- JO and JNO in both forms have the encodings of R128 and R129 and complete at every state: pc becomes the source
value if the flag V has the value the instruction tests (JO: 1, JNO: 0), and otherwise the address of the next
instruction; no register, flag, memory byte or sp changes. [stated: R128, R129] -/
def Obligations.JoJnoTestOverflow : Prop :=
  EncodesS 0xD800 .joImm .joReg ∧ EncodesS 0xE000 .jnoImm .jnoReg ∧
    (BothS .joImm .joReg fun i len target s =>
      (s.flags.v = true → JumpsTo i s target) ∧ (s.flags.v = false → JumpsTo i s (s.pc + BitVec.ofNat 16 len))) ∧
    (BothS .jnoImm .jnoReg fun i len target s =>
      (s.flags.v = false → JumpsTo i s target) ∧ (s.flags.v = true → JumpsTo i s (s.pc + BitVec.ofNat 16 len)))

/-- CALL in both forms has the encoding of R130. In every state with canonical memory: if sp - 1 is in [STACK_LO,
STACK_HI] it completes, M[sp-1] is pc + len, sp is sp - 1, pc is the source value, nothing else changes;
otherwise it faults with StackOverflow and only run and cause change. [stated: R130] -/
def Obligations.CallPushesReturnAddress : Prop :=
  EncodesS 0xE800 .callImm .callReg ∧
    (BothS .callImm .callReg fun i len target s => s.mem.wf = true →
      (PushSlot s → Pushes i s (s.pc + BitVec.ofNat 16 len) target) ∧
      (¬ PushSlot s → exec i s = .next (faultedWith .stackOverflow s)))

/-- RET is the Word 0xF100. In every state with a legal Config: if sp is in [STACK_LO, STACK_HI] it completes, pc is
M[sp], unchecked, sp is sp + 1, nothing else changes, and if the core may step and the popped Word is >=
MEM_WORDS the next step faults with MemoryOutOfBounds; otherwise it faults with StackUnderflow and only run and
cause change. [stated: R131] -/
def Obligations.RetPopsIntoPc : Prop :=
  encode .ret = [0xF100] ∧ ∀ s : State, s.cfg.wf = true →
    (PopSlot s → ∃ t, exec .ret s = .next t ∧ t.pc = s.mem.readWord s.sp.toNat ∧ t.sp.toNat = s.sp.toNat + 1 ∧
      KeepsRegs s t ∧ t.flags = s.flags ∧ KeepsMemory s t ∧ KeepsControl s t ∧
      (s.Active → s.cfg.memWords ≤ t.pc.toNat → step t = .next (faultedWith .memoryOutOfBounds t))) ∧
    (¬ PopSlot s → exec .ret s = .next (faultedWith .stackUnderflow s))

/-- In every state that satisfies the invariant and whose slot sp - 1 is in the region: after CALL imm or CALL Rs,
RET completes with pc at the address of the instruction after the CALL (pc + 2 or pc + 1) and sp, the registers
and the flags as before the CALL. [derived: 43_control_flow.md R130, 43_control_flow.md R131] -/
def Obligations.RetReturnsPastTheCall : Prop :=
  BothS .callImm .callReg fun i len _ s => ∀ t, s.Inv → PushSlot s → exec i s = .next t →
    ∃ u, exec .ret t = .next u ∧ u.pc = s.pc + BitVec.ofNat 16 len ∧ u.sp = s.sp ∧ KeepsRegs s u ∧ u.flags = s.flags

/-- HALT is the Word 0x0900 and completes at every state: pc is pc + 1, run is Halted, no register, flag, sp, memory
byte, cause or entry changes. A step of a core with a legal Config that may step and whose pc decodes to HALT is
reported Halted, and every step of a Halted core is reported Rejected and changes nothing. [stated: R132] -/
def Obligations.HaltAdvancesAndHalts : Prop :=
  encode .halt = [0x0900] ∧
    (∀ s : State, ∃ t, exec .halt s = .next t ∧ t.pc = s.pc + 1 ∧ t.run = .halted ∧ KeepsRegs s t ∧
      t.flags = s.flags ∧ t.sp = s.sp ∧ KeepsMemory s t ∧ t.cause = s.cause ∧ t.entry = s.entry ∧ t.cfg = s.cfg) ∧
    (∀ (s : State) (n : Nat), s.cfg.wf = true → s.Active → decodeAtPc s = .ok .halt n → stepReport s = some .halted) ∧
    (∀ s : State, s.cfg.wf = true → s.run = .halted → step s = .next s ∧ stepReport s = some .rejected)

/-! ### What no instruction outside a family touches -/

/-- For every form that is not one of the eleven arithmetic and logic instructions, a next state has the flags of
the state before. For every form that is not a conditional jump, running it with other flags gives the same next
state but for the flags. [derived: 10_state.md R16, 10_state.md R17] -/
def Obligations.FlagsBelongToArithmeticAndLogic : Prop :=
  (∀ (i : Instr) (s t : State),
      i.record.op ∉ [.add, .sub, .mul, .div, .mod, .and, .or, .xor, .shl, .shr, .cmp] →
      exec i s = .next t → t.flags = s.flags) ∧
    (∀ (i : Instr) (s t : State) (f : Flags), i.record.op ∉ [.jz, .jnz, .jc, .jnc, .js, .jns, .jo, .jno] →
      exec i s = .next t → ∃ u, exec i (s.setFlags f) = .next u ∧ u.setFlags t.flags = t)

/-- For every form other than PUSH, POP, CALL, RET and SSP a next state has the sp of the state before. In a state
with a legal Config, PUSH and CALL leave sp or decrement it by one, POP and RET leave sp or increment it by one,
never wrapping. [derived: 10_state.md R14, 10_state.md R18] -/
def Obligations.SpBelongsToTheStackFamily : Prop :=
  (∀ (i : Instr) (s t : State), i.record.op ∉ [.push, .pop, .call, .ret, .ssp] →
      exec i s = .next t → t.sp = s.sp) ∧
    (∀ (i : Instr) (s t : State), s.cfg.wf = true → i.record.op ∈ [.push, .call] → exec i s = .next t →
      t.sp = s.sp ∨ t.sp.toNat + 1 = s.sp.toNat) ∧
    (∀ (i : Instr) (s t : State), s.cfg.wf = true → i.record.op ∈ [.pop, .ret] → exec i s = .next t →
      t.sp = s.sp ∨ t.sp.toNat = s.sp.toNat + 1)

/-- For every form other than ST, PUSH and CALL a next state has the memory of the state before. For ST, in a state
with canonical memory, every byte outside the Word at the effective address is unchanged; for PUSH and CALL
every byte outside the Word at sp - 1. [derived: 10_state.md R19, 20_memory.md R36] -/
def Obligations.MemoryChangesInAtMostOneWord : Prop :=
  (∀ (i : Instr) (s t : State), i.record.op ∉ [.st, .push, .call] → exec i s = .next t → t.mem = s.mem) ∧
    (∀ (s t : State) (rd rs : Reg) (x : Word), s.mem.wf = true →
      (exec (.stInd rd rs) s = .next t → KeepsMemoryBut (eaInd rd s) s t) ∧
      (exec (.stDir x rs) s = .next t → KeepsMemoryBut (eaDir x s) s t) ∧
      (exec (.stSp x rs) s = .next t → KeepsMemoryBut (eaSp x s) s t)) ∧
    (∀ (i : Instr) (s t : State), s.mem.wf = true → i.record.op ∈ [.push, .call] → exec i s = .next t →
      KeepsMemoryBut (s.sp.toNat - 1) s t)

/-- For every form, a next state has every general register other than the one the rd field names unchanged; and for
CMP, ST, PUSH, SSP, the jumps, CALL, RET and HALT every general register is unchanged. [derived: 10_state.md
R11, 43_control_flow.md R133] -/
def Obligations.RegistersChangeOnlyAtRd : Prop :=
  (∀ (i : Instr) (s t : State), exec i s = .next t → KeepsRegsBut i.record.rd s t) ∧
    (∀ (i : Instr) (s t : State),
      i.record.op ∉ [.add, .sub, .mul, .div, .mod, .and, .or, .xor, .shl, .shr, .mov, .ld, .pop, .gsp] →
      exec i s = .next t → KeepsRegs s t)

/-! ### The step, faults and run states -/

/-- For every form and every state exec answers a next state, and that state either has the same cause, entry and
Config with run advanced out of Ready (or Halted, for HALT), or is the state before with run Faulted and the
fault in cause and nothing else changed: "either fully commits ... or fully faults". [derived: 00_scope.md R8,
60_exceptions.md R150, 60_exceptions.md R151] -/
def Obligations.EveryInstructionCompletesOrFaults : Prop :=
  ∀ (i : Instr) (s : State), ∃ t, exec i s = .next t ∧
    ((t.cause = s.cause ∧ t.entry = s.entry ∧ t.cfg = s.cfg ∧
        t.run = (if i = .halt then .halted else s.run.started)) ∨
      ∃ f, t = faultedWith f s)

/-- For every state with a legal Config that may step: if its step ends in a state that is Faulted, that state is
the state before with run Faulted and cause some fault F, everything else (pc, sp, registers, flags, memory,
entry) unchanged, and the step is reported Fault(F); a step of the Faulted core is rejected, and Reset makes it
Ready again. [stated: R150] -/
def Obligations.FaultEntryChangesOnlyRunAndCause : Prop :=
  ∀ s t : State, s.cfg.wf = true → s.Active → step s = .next t → t.run = .faulted →
    ∃ f, t = faultedWith f s ∧ stepReport s = some (.fault f) ∧ step t = .next t ∧
      stepReport t = some .rejected ∧ (resetCore t).run = .ready

/-- In a state with a legal Config that is Ready or Running, if the Words at pc decode to i, step at s is exec of i
at s, with nothing added around it (that a Ready core becomes Running is part of how exec commits: log entry 6).
[derived: 60_exceptions.md R140, 60_exceptions.md R141] -/
def Obligations.StepRunsTheDecodedInstruction : Prop :=
  ∀ (s : State) (i : Instr) (n : Nat), s.cfg.wf = true → s.Active → decodeAtPc s = .ok i n → step s = exec i s

/-- For a state with a legal Config that may step, with w = M[pc]: pc >= MEM_WORDS gives MemoryOutOfBounds; else a
reserved opcode gives IllegalOpcode; else a w that is the first Word of no instruction gives IllegalOperand;
else, for a two-Word instruction with pc + 1 >= MEM_WORDS, MemoryOutOfBounds; else, with the Words of encode i
at pc, the step is exec of i. In each fault only run and cause change. An execution fault is DivisionByZero only
from DIV and MOD, MemoryOutOfBounds only from LD and ST, StackOverflow only from PUSH and CALL, StackUnderflow
only from POP and RET. The last clause, which instruction can raise which fault, is the sentence of R152 that
the spec marks as derived from R82 to R132. [derived: 60_exceptions.md R152, 60_exceptions.md R140] -/
def Obligations.FaultPriorityOfAStep : Prop :=
  (∀ s : State, s.cfg.wf = true → s.Active →
      (s.cfg.memWords ≤ s.pc.toNat → step s = .next (faultedWith .memoryOutOfBounds s)) ∧
      (s.pc.toNat < s.cfg.memWords → ∀ w, w = s.mem.readWord s.pc.toNat →
        (w.toNat ≤ 0x07FF ∨ 0xF800 ≤ w.toNat → step s = .next (faultedWith .illegalOpcode s)) ∧
        (0x07FF < w.toNat → w.toNat < 0xF800 → (¬ ∃ i : Instr, (encode i).head? = some w) →
          step s = .next (faultedWith .illegalOperand s)) ∧
        (∀ i : Instr, (encode i).head? = some w → (encode i).length = 2 → s.cfg.memWords ≤ s.pc.toNat + 1 →
          step s = .next (faultedWith .memoryOutOfBounds s)) ∧
        (∀ i : Instr, (encode i).head? = some w → s.pc.toNat + (encode i).length ≤ s.cfg.memWords →
          (∀ e, (encode i)[1]? = some e → s.mem.readWord (s.pc.toNat + 1) = e) → step s = exec i s))) ∧
    (∀ (i : Instr) (s t : State) (f : FaultCause), s.cause = none → exec i s = .next t → t.cause = some f →
      (f = .divisionByZero ∧ i.record.op ∈ [.div, .mod]) ∨ (f = .memoryOutOfBounds ∧ i.record.op ∈ [.ld, .st]) ∨
        (f = .stackOverflow ∧ i.record.op ∈ [.push, .call]) ∨ (f = .stackUnderflow ∧ i.record.op ∈ [.pop, .ret]))

/-- For every state with a legal Config: the step of the state with run Ready equals the step of the same state with
run Running, and it ends in Running, Halted or Faulted, never in Ready. [stated: R141] -/
def Obligations.ReadyStepsLikeRunning : Prop :=
  ∀ s : State, s.cfg.wf = true →
    step { s with run := .ready } = step { s with run := .running } ∧
    ∃ t, step { s with run := .ready } = .next t ∧ (t.run = .running ∨ t.run = .halted ∨ t.run = .faulted)

/-- For a state with a legal Config: from Ready or Running a step goes to Halted iff the instruction at pc is HALT,
and otherwise to Running (a commit) or Faulted (a fault latched in cause); from Halted and from Faulted a step
changes nothing; Reset and a successful Load end in Ready from any state. [stated: R20] -/
def Obligations.RunStateTransitions : Prop :=
  (∀ s t : State, s.cfg.wf = true → s.Active → step s = .next t →
      (t.run = .halted ↔ ∃ n, decodeAtPc s = .ok .halt n) ∧
      (t.run = .halted ∨ (t.run = .running ∧ t.cause = s.cause) ∨ ∃ f, t = faultedWith f s)) ∧
    (∀ s : State, s.cfg.wf = true → s.run = .halted ∨ s.run = .faulted → step s = .next s) ∧
    (∀ s : State, (resetCore s).run = .ready) ∧
    (∀ (s t : State) (image : List Word), loadImage s image = .ok t → t.run = .ready)

/-- For a state with a legal Config: in Halted or Faulted the step is Rejected and the state is unchanged; otherwise
it is reported Ok iff it ends in Running, Halted iff it ends in Halted, and Fault(F) iff it ends in Faulted with
cause F. [stated: R142] -/
def Obligations.StepReportsItsOutcome : Prop :=
  ∀ s : State, s.cfg.wf = true →
    (s.run = .halted ∨ s.run = .faulted → step s = .next s ∧ stepReport s = some .rejected) ∧
    (s.Active → ∃ t, step s = .next t ∧ stepReport s ≠ some .rejected ∧
      (stepReport s = some .ok ↔ t.run = .running) ∧ (stepReport s = some .halted ↔ t.run = .halted) ∧
      ∀ f, stepReport s = some (.fault f) ↔ t.run = .faulted ∧ t.cause = some f)

/-- For a state with a legal Config that is Halted or Faulted, k steps of the machine, for every k, end in that same
state; and from any state with a legal Config, k steps never stop the model (no fault or refusal outcome).
[derived: 70_reset_and_hazards.md R176, 60_exceptions.md R155] -/
def Obligations.TerminalStatesAreStable : Prop :=
  (∀ (k : Nat) (s : State), s.cfg.wf = true → s.run = .halted ∨ s.run = .faulted →
      Sys2Proof.core.run k s = .next s) ∧
    (∀ (k : Nat) (s : State), s.cfg.wf = true → ∃ t : State, Sys2Proof.core.run k s = .next t ∧ t.cfg = s.cfg)

/-- With MEM_WORDS = 65536 and pc = 0xFFFF in a legal Config: if the Word there is any one-Word instruction that
does not set pc (R13: not JMP, CALL, RET, nor a conditional jump whose condition is true), the step runs it, and
either it commits with pc = 0x0000, or it is a DIV, MOD, LD, ST, PUSH or POP that faults, changing run and cause
alone; a MOV Rd, Rs copies its register. If the Word is the first of any two-Word instruction the step faults
with MemoryOutOfBounds and pc stays 0xFFFF. [derived: 10_state.md R13, 20_memory.md R39, 60_exceptions.md R146] -/
def Obligations.PcWrapsButTrailingFetchDoesNot : Prop :=
  ∀ s : State, s.cfg.wf = true → s.Active → s.cfg.memWords = 65536 → s.pc = 0xFFFF →
    (∀ i : Instr, (encode i).head? = some (s.mem.readWord 0xFFFF) → (encode i).length = 1 → ¬ SetsPc i.record.op s →
      ∃ t, step s = .next t ∧ exec i s = .next t ∧
        ((t.pc = 0 ∧ t.cause = s.cause ∧ t.run = if i = .halt then .halted else .running) ∨
          (i.record.op ∈ [.div, .mod, .ld, .st, .push, .pop] ∧ ∃ f, t = faultedWith f s))) ∧
    (∀ rd rs, (encode (.movReg rd rs)).head? = some (s.mem.readWord 0xFFFF) →
      ∃ t, step s = .next t ∧ t.pc = 0 ∧ t.regs.get rd = s.regs.get rs ∧ t.run = .running) ∧
    (∀ i : Instr, (encode i).head? = some (s.mem.readWord 0xFFFF) → (encode i).length = 2 →
      step s = .next (faultedWith .memoryOutOfBounds s))

/-! ### Invariants -/

/-- For every state that satisfies the invariant (legal Config, memory in canonical form with no cell outside M, a
latched cause exactly in Faulted), if step answers a next state, that state satisfies it too, with the same
Config and the same entry. That memory is in canonical form (Memory.wf) is the model's choice (log entry 3), not
R19; R19 gives that there is no Word outside M. [derived: 00_scope.md R6, 10_state.md R19, 10_state.md R21,
notes/assumptions/3.md] -/
def Obligations.StepKeepsTheInvariant : Prop :=
  ∀ s t : State, s.Inv → step s = .next t → t.Inv ∧ t.cfg = s.cfg ∧ t.entry = s.entry

/-- The model's choice (log entries 1 and 2), not a rule: State.reset is the state that construction gives for
CFG_REF and the image 0001 0000 0000 of no Words. It satisfies the invariant, and its first step faults with
IllegalOpcode, as R173 says of an image of no Words. [derived: 70_reset_and_hazards.md R170, 10_state.md R24,
notes/assumptions/1.md, notes/assumptions/2.md] -/
def Obligations.ResetStateIsALoadedMachine : Prop :=
  construct Config.ref [1, 0, 0] = some State.reset ∧ State.reset.Inv ∧
    step State.reset = .next (faultedWith .illegalOpcode State.reset)

/-- Every state a core can be in, built from any legal Config and any accepted image and then changed by Step, Reset
and Load in any order, satisfies the invariant: so memory always has its canonical form within MEM_WORDS, and
cause is None exactly when run is not Faulted. That memory is in canonical form is the model's choice (log entry
3), not a rule. [derived: 10_state.md R21, 10_state.md R19, 70_reset_and_hazards.md R170, 00_scope.md R4,
notes/assumptions/3.md] -/
def Obligations.ReachableStatesSatisfyTheInvariant : Prop :=
  ∀ s : State, Reachable s → s.Inv

/-! ### Reset, load and inspection -/

/-- Reset at any state: every general register and sp read 0, all four flags are 0, pc is entry, run is Ready, cause
is None; memory, entry and the Config are unchanged. [stated: R171] -/
def Obligations.ResetZeroesAndRestoresPc : Prop :=
  ∀ s : State, (∀ r, (resetCore s).regs.get r = 0) ∧ (resetCore s).sp = 0 ∧ (resetCore s).flags.z = false ∧
    (resetCore s).flags.c = false ∧ (resetCore s).flags.s = false ∧ (resetCore s).flags.v = false ∧
    (resetCore s).pc = s.entry ∧ (resetCore s).run = .ready ∧ (resetCore s).cause = none ∧
    (resetCore s).mem = s.mem ∧ (resetCore s).entry = s.entry ∧ (resetCore s).cfg = s.cfg

/-- Load of an image succeeds iff it has at least 3 Words, its version is FORMAT_VERSION, its count matches the
Words that follow and does not exceed MEM_WORDS; otherwise ImageFormatError. After success M[a] is code Word a
for a below the count and 0 for every other address, entry and pc are the header's entry point, all registers,
sp and flags are 0, run is Ready, cause None. After an empty image the first step faults: MemoryOutOfBounds if
entry >= MEM_WORDS, else IllegalOpcode. [stated: R173] -/
def Obligations.LoadPlacesTheImage : Prop :=
  ∀ (s : State) (image : List Word),
    ((¬ ∃ version entryPoint count code, image = version :: entryPoint :: count :: code ∧
        version = s.cfg.formatVersion ∧ code.length = count.toNat ∧ count.toNat ≤ s.cfg.memWords) →
      loadImage s image = .imageFormatError) ∧
    (∀ version entryPoint count code, image = version :: entryPoint :: count :: code →
      version = s.cfg.formatVersion → code.length = count.toNat → count.toNat ≤ s.cfg.memWords →
      ∃ t, loadImage s image = .ok t ∧ (∀ a, t.mem.readWord a = code.getD a 0) ∧
        t.entry = entryPoint ∧ t.pc = entryPoint ∧ (∀ r, t.regs.get r = 0) ∧ t.sp = 0 ∧ t.flags = Flags.zero ∧
        t.run = .ready ∧ t.cause = none ∧ t.cfg = s.cfg ∧
        (s.cfg.wf = true → code = [] → step t = .next (faultedWith
          (if s.cfg.memWords ≤ entryPoint.toNat then .memoryOutOfBounds else .illegalOpcode) t)))

/-- Inspect gives x[0..7], pc, sp, the flags, run, cause (and entry: R25, log entry 10) of the state, and M[a] for
exactly the valid addresses a, in every run state. A fault shows in it as run and cause alone. [derived:
60_exceptions.md R161, 10_state.md R25] -/
def Obligations.InspectShowsTheState : Prop :=
  ∀ s : State, (∀ r, (inspect s).regs.get r = s.reg r) ∧ (inspect s).pc = s.pc ∧ (inspect s).sp = s.sp ∧
    (inspect s).flags = s.flags ∧ (inspect s).run = s.run ∧ (inspect s).cause = s.cause ∧ (inspect s).entry = s.entry ∧
    (∀ a, (a < s.cfg.memWords → inspectWord s a = some (s.mem.readWord a)) ∧
      (s.cfg.memWords ≤ a → inspectWord s a = none)) ∧
    (∀ f, inspect (faultedWith f s) = { inspect s with run := .faulted, cause := some f })

/-- Reset of a state that satisfies the invariant satisfies it; a successful Load of any image into any state with a
legal Config, and the construction of a core from any Config and any image, end in a state that satisfies it,
with that Config. That memory is in canonical form is the model's choice (log entry 3), not a rule. [derived:
10_state.md R19, 10_state.md R21, 70_reset_and_hazards.md R170, 70_reset_and_hazards.md R171,
70_reset_and_hazards.md R173, notes/assumptions/3.md] -/
def Obligations.HostOperationsKeepTheInvariant : Prop :=
  (∀ s : State, s.Inv → (resetCore s).Inv) ∧
    (∀ (s t : State) (image : List Word), s.cfg.wf = true → loadImage s image = .ok t → t.Inv ∧ t.cfg = s.cfg) ∧
    (∀ (c : Config) (image : List Word) (t : State), construct c image = some t → t.Inv ∧ t.cfg = c)

/-- Two states that satisfy the invariant, have the same Config, and show the same to Inspect (the registers, pc,
sp, the flags, run, cause, entry, and M[a] for every valid a) are equal, so their steps end alike and are
reported alike. That equal contents are equal lists of cells rests on the canonical form of memory, the model's
choice (log entry 3), and that Inspect shows entry on R25 (log entry 10). [derived: 10_state.md R18, 10_state.md
R25, 60_exceptions.md R161, notes/assumptions/3.md, notes/assumptions/10.md] -/
def Obligations.InspectDeterminesTheState : Prop :=
  ∀ s t : State, s.Inv → t.Inv → s.cfg = t.cfg → inspect s = inspect t →
    (∀ a, a < s.cfg.memWords → inspectWord s a = inspectWord t a) →
    s = t ∧ step s = step t ∧ stepReport s = stepReport t
end

