-- ==== Sys2Proof/Laws/Codec.lean ====
section
/-! SUPPORT. The codec's field maps are inverse to each other, and a first Word is its five fields. -/

namespace Sys2Proof

@[simp] theorem Reg.ofField_field (r : Reg) : Reg.ofField r.field = r := by cases r <;> rfl

theorem Reg.field_ofField : ∀ b : BitVec 3, (Reg.ofField b).field = b := by decide

@[simp] theorem Mode.ofField_field (m : Mode) : Mode.ofField m.field = some m := by cases m <;> rfl

theorem Mode.field_of_ofField : ∀ (b : BitVec 3) (m : Mode), Mode.ofField b = some m → m.field = b := by
  intro b
  revert b
  decide +kernel

@[simp] theorem Op.ofField_field (o : Op) : Op.ofField o.field = some o := by cases o <;> rfl

theorem Op.field_of_ofField {b : BitVec 5} {o : Op} (h : Op.ofField b = some o) : o.field = b := by
  have key : ∀ b : BitVec 5, ((Op.ofField b).map Op.field).getD b = b := by decide +kernel
  simpa [h] using key b

/-- The opcode field names no instruction exactly for 0 and 31 (R64). -/
theorem Op.ofField_eq_none_iff : ∀ b : BitVec 5, Op.ofField b = none ↔ b = 0 ∨ b = 31 := by decide +kernel

/-- The mode field names no mode exactly for 5, 6 and 7 (R53). -/
theorem Mode.ofField_eq_none_iff : ∀ b : BitVec 3, Mode.ofField b = none ↔ b = 5 ∨ b = 6 ∨ b = 7 := by decide +kernel

section firstWord

variable (o : BitVec 5) (m d s : BitVec 3)

/-- A first Word as a number (R51). -/
theorem firstWord_toNat :
    (firstWord o m d s).toNat = o.toNat * 2048 + m.toNat * 256 + d.toNat * 32 + s.toNat * 4 := by
  have key : ∀ (o : BitVec 5) (m d s : BitVec 3),
      (firstWord o m d s).toNat = o.toNat * 2048 + m.toNat * 256 + d.toNat * 32 + s.toNat * 4 := by decide +kernel
  exact key o m d s

theorem opcodeField_toNat (w : Word) : (opcodeField w).toNat = w.toNat / 2048 % 32 := by
  simp [opcodeField, Nat.shiftRight_eq_div_pow]

theorem modeField_toNat (w : Word) : (modeField w).toNat = w.toNat / 256 % 8 := by
  simp [modeField, Nat.shiftRight_eq_div_pow]

theorem rdField_toNat (w : Word) : (rdField w).toNat = w.toNat / 32 % 8 := by
  simp [rdField, Nat.shiftRight_eq_div_pow]

theorem rsField_toNat (w : Word) : (rsField w).toNat = w.toNat / 4 % 8 := by
  simp [rsField, Nat.shiftRight_eq_div_pow]

theorem zeroField_toNat (w : Word) : (zeroField w).toNat = w.toNat % 4 := by
  simp [zeroField]

@[simp] theorem opcodeField_firstWord : opcodeField (firstWord o m d s) = o := by
  apply BitVec.eq_of_toNat_eq
  rw [opcodeField_toNat, firstWord_toNat]
  omega

@[simp] theorem modeField_firstWord : modeField (firstWord o m d s) = m := by
  apply BitVec.eq_of_toNat_eq
  rw [modeField_toNat, firstWord_toNat]
  omega

@[simp] theorem rdField_firstWord : rdField (firstWord o m d s) = d := by
  apply BitVec.eq_of_toNat_eq
  rw [rdField_toNat, firstWord_toNat]
  omega

@[simp] theorem rsField_firstWord : rsField (firstWord o m d s) = s := by
  apply BitVec.eq_of_toNat_eq
  rw [rsField_toNat, firstWord_toNat]
  omega

@[simp] theorem zeroField_firstWord : zeroField (firstWord o m d s) = 0 := by
  apply BitVec.eq_of_toNat_eq
  rw [zeroField_toNat, firstWord_toNat]
  simp
  omega

/-- A Word whose reserved bits are zero is the first Word of its four fields. -/
theorem firstWord_fields {w : Word} (h : zeroField w = 0) :
    firstWord (opcodeField w) (modeField w) (rdField w) (rsField w) = w := by
  apply BitVec.eq_of_toNat_eq
  have h0 : (zeroField w).toNat = 0 := by rw [h]; rfl
  have := w.isLt
  rw [zeroField_toNat] at h0
  rw [firstWord_toNat, opcodeField_toNat, modeField_toNat, rdField_toNat, rsField_toNat]
  omega

end firstWord

/-- What a successful check of the first Word says (R63). -/
theorem checkFirst_ok {w : Word} {op : Op} {mode : Mode} (h : checkFirst w = .ok (op, mode)) :
    Op.ofField (opcodeField w) = some op ∧ Mode.ofField (modeField w) = some mode ∧ zeroField w = 0 ∧
      ∃ row, formRow op mode = some row ∧ (row.usesRd = false → rdField w = 0) ∧
        (row.usesRs = false → rsField w = 0) := by
  unfold checkFirst at h
  split at h
  · cases h
  rename_i op' ho
  split at h
  · cases h
  rename_i mode' hm
  split at h
  · cases h
  rename_i row hr
  split_ifs at h with h1 h2 h3
  cases h
  refine ⟨ho, hm, by simpa using h1, row, hr, fun e => ?_, fun e => ?_⟩
  · by_contra hne
    exact h2 ⟨e, hne⟩
  · by_contra hne
    exact h3 ⟨e, hne⟩

/-- The check of the first Word of given codes depends on the row of R57 alone. -/
theorem checkFirst_firstWord (op : Op) (mode : Mode) (rd rs : Reg) (row : FormRow) (hr : formRow op mode = some row)
    (hrd : row.usesRd = false → rd = .r0) (hrs : row.usesRs = false → rs = .r0) :
    checkFirst (firstWord op.field mode.field rd.field rs.field) = .ok (op, mode) := by
  unfold checkFirst
  simp only [opcodeField_firstWord, modeField_firstWord, rdField_firstWord, rsField_firstWord, zeroField_firstWord,
    Op.ofField_field, Mode.ofField_field, hr]
  rw [if_neg (by simp), if_neg, if_neg]
  · rintro ⟨e, hne⟩
    exact hne (by rw [hrs e]; rfl)
  · rintro ⟨e, hne⟩
    exact hne (by rw [hrd e]; rfl)

namespace Laws

/-- The record of a form is well-formed (R60). -/
theorem record_wf (i : Instr) : i.record.wf = true := by cases i <;> rfl

/-- The form of the record of a form is that form. -/
theorem form_record (i : Instr) : i.record.form = some i := by cases i <;> rfl

/-- The Words of a form: the first Word of its record, then its trailing Word if it has one. -/
theorem encode_eq (i : Instr) :
    encode i = firstWord i.record.op.field i.record.mode.field i.record.rd.field i.record.rs.field ::
      i.record.ext.toList := by
  cases i <;> rfl

/-- The row of R57 that a form's record falls under, which holds its unused fields at 0. -/
theorem formRow_record (i : Instr) : ∃ row, formRow i.record.op i.record.mode = some row ∧
    (row.usesRd = false → i.record.rd = .r0) ∧ (row.usesRs = false → i.record.rs = .r0) := by
  cases i <;> exact ⟨_, rfl, by simp [Instr.record], by simp [Instr.record]⟩

/-- The first Word of an instruction passes the checks of R63, which name its opcode and mode. -/
theorem checkFirst_of_head {i : Instr} {w : Word} (h : (encode i).head? = some w) :
    checkFirst w = .ok (i.record.op, i.record.mode) := by
  rw [encode_eq] at h
  obtain ⟨row, h1, h2, h3⟩ := formRow_record i
  cases h
  exact checkFirst_firstWord _ _ _ _ row h1 h2 h3

end Laws

end Sys2Proof
end

