-- ==== Sys2Proof/Laws/Memory.lean ====
section
/-! SUPPORT. What the memory operations do: reading back, leaving every other place alone, and keeping the canonical
form and the bound on the listed addresses. -/

namespace Sys2Proof.Machine.Memory

@[simp] theorem readByte_nil (a : Nat) : readByte [] a = unlistedByte := rfl

@[simp] theorem wf_nil : wf [] = true := rfl

@[simp] theorem below_nil (bound : Nat) : below bound [] = true := rfl

theorem wfFrom_cons {lo k : Nat} {x : Byte} {m : Memory} :
    wfFrom lo ((k, x) :: m) = true ↔ lo ≤ k ∧ x ≠ unlistedByte ∧ wfFrom (k + 1) m = true := by
  simp [wfFrom, and_assoc]

theorem wfFrom_mono {lo hi : Nat} {m : Memory} (h : lo ≤ hi) (hm : wfFrom hi m = true) : wfFrom lo m = true := by
  cases m with
  | nil => rfl
  | cons c m =>
    obtain ⟨k, x⟩ := c
    rw [wfFrom_cons] at hm ⊢
    exact ⟨by omega, hm.2⟩

/-- An address below every listed one reads as unlisted. -/
theorem readByte_of_lt {lo a : Nat} {m : Memory} (hm : wfFrom lo m = true) (h : a < lo) :
    readByte m a = unlistedByte := by
  induction m generalizing lo with
  | nil => rfl
  | cons c m ih =>
    obtain ⟨k, x⟩ := c
    rw [wfFrom_cons] at hm
    rw [readByte, if_neg (by omega)]
    exact ih hm.2.2 (by omega)

theorem wfFrom_writeByte {lo a : Nat} {v : Byte} {m : Memory} (hm : wfFrom lo m = true) (ha : lo ≤ a) :
    wfFrom lo (writeByte m a v) = true := by
  induction m generalizing lo with
  | nil =>
    by_cases hv : v = unlistedByte
    · simp [writeByte, hv, wfFrom]
    · simp [writeByte, hv, wfFrom, ha]
  | cons c m ih =>
    obtain ⟨k, x⟩ := c
    have hm' := wfFrom_cons.1 hm
    unfold writeByte
    split_ifs with h1 h2 h3 h4
    · exact hm
    · exact wfFrom_cons.2 ⟨ha, h2, wfFrom_cons.2 ⟨by omega, hm'.2⟩⟩
    · exact wfFrom_mono (by omega) hm'.2.2
    · exact wfFrom_cons.2 ⟨ha, h4, h3 ▸ hm'.2.2⟩
    · exact wfFrom_cons.2 ⟨hm'.1, hm'.2.1, ih hm'.2.2 (by omega)⟩

theorem wf_writeByte {a : Nat} {v : Byte} {m : Memory} (hm : wf m = true) : wf (writeByte m a v) = true :=
  wfFrom_writeByte hm (Nat.zero_le a)

theorem wfFrom_readByte_writeByte {lo a b : Nat} {v : Byte} {m : Memory} (hm : wfFrom lo m = true) :
    readByte (writeByte m a v) b = if a = b then v else readByte m b := by
  induction m generalizing lo with
  | nil =>
    by_cases hv : v = unlistedByte
    · simp [writeByte, hv]
    · simp [writeByte, hv, readByte]
  | cons c m ih =>
    obtain ⟨k, x⟩ := c
    have hm' := (wfFrom_cons.1 hm).2.2
    unfold writeByte
    split_ifs with h1 h2 h3 h3 h4 h5 h6 h7
    · subst h2 h3
      exact readByte_of_lt (lo := k) (wfFrom_cons.2 ⟨le_rfl, (wfFrom_cons.1 hm).2⟩) h1
    · rfl
    · simp [readByte, h3]
    · simp [readByte, h3]
    · subst h4 h5 h6
      exact readByte_of_lt hm' (by omega)
    · subst h4
      simp [readByte, h6]
    · simp [readByte, h7]
    · subst h4
      simp [readByte, h7]
    · rw [readByte, if_neg (by omega), ih hm', if_pos ‹_›]
    · simp only [readByte]
      split_ifs
      · rfl
      · rw [ih hm', if_neg ‹_›]

/-- Reading a byte after a write: the value at the place written, the old value everywhere else. -/
theorem readByte_writeByte {a b : Nat} {v : Byte} {m : Memory} (hm : wf m = true) :
    readByte (writeByte m a v) b = if a = b then v else readByte m b :=
  wfFrom_readByte_writeByte hm

theorem below_cons {bound k : Nat} {x : Byte} {m : Memory} :
    below bound ((k, x) :: m) = true ↔ k < bound ∧ below bound m = true := by
  simp [below]

theorem below_writeByte {bound a : Nat} {v : Byte} {m : Memory} (hm : below bound m = true) (ha : a < bound) :
    below bound (writeByte m a v) = true := by
  induction m with
  | nil =>
    by_cases hv : v = unlistedByte
    · simp [writeByte, hv, below]
    · simp [writeByte, hv, below, ha]
  | cons c m ih =>
    obtain ⟨k, x⟩ := c
    have hk := below_cons.1 hm
    unfold writeByte
    split_ifs
    · exact hm
    · exact below_cons.2 ⟨ha, hm⟩
    · exact hk.2
    · exact below_cons.2 ⟨ha, hk.2⟩
    · exact below_cons.2 ⟨hk.1, ih hk.2⟩

/-! ### Words -/

theorem wf_writeWord {a : Nat} {v : Word} {m : Memory} (hm : wf m = true) : wf (writeWord m a v) = true :=
  wf_writeByte (wf_writeByte hm)

theorem below_writeWord {bound a : Nat} {v : Word} {m : Memory} (hm : below (2 * bound) m = true) (ha : a < bound) :
    below (2 * bound) (writeWord m a v) = true :=
  below_writeByte (below_writeByte hm (by omega)) (by omega)

/-- A byte of any other Word reads as before. -/
theorem readByte_writeWord_other {a b : Nat} {v : Word} {m : Memory} (hm : wf m = true) (h : b / 2 ≠ a) :
    readByte (writeWord m a v) b = readByte m b := by
  rw [writeWord, readByte_writeByte (wf_writeByte hm), if_neg (by omega), readByte_writeByte hm, if_neg (by omega)]

theorem readWord_writeWord_same {a : Nat} {v : Word} {m : Memory} (hm : wf m = true) :
    readWord (writeWord m a v) a = v := by
  rw [readWord, writeWord, readByte_writeByte (wf_writeByte hm), if_pos rfl, readByte_writeByte (wf_writeByte hm),
    if_neg (by omega), readByte_writeByte hm, if_pos rfl]
  apply BitVec.eq_of_toNat_eq
  have := v.isLt
  simp only [BitVec.toNat_append, BitVec.extractLsb'_toNat, Nat.shiftRight_eq_div_pow]
  rw [← Nat.shiftLeft_add_eq_or_of_lt (by omega), Nat.shiftLeft_eq]
  omega

theorem readWord_writeWord_other {a b : Nat} {v : Word} {m : Memory} (hm : wf m = true) (h : b ≠ a) :
    readWord (writeWord m a v) b = readWord m b := by
  rw [readWord, readWord, readByte_writeWord_other hm (by omega), readByte_writeWord_other hm (by omega)]

@[simp] theorem readWord_nil (a : Nat) : readWord [] a = 0 := by
  simp [readWord, unlistedByte]

/-! ### A loaded image -/

/-- Two canonical lists of cells that read alike are one list: "equal memories are equal data". -/
theorem eq_of_readByte {m n : Memory} (hm : wf m = true) (hn : wf n = true) (h : ∀ a, readByte m a = readByte n a) :
    m = n := by
  suffices key : ∀ (m n : Memory) (lo : Nat), wfFrom lo m = true → wfFrom lo n = true →
      (∀ a, readByte m a = readByte n a) → m = n from key m n 0 hm hn h
  intro m
  induction m with
  | nil =>
    intro n lo _ hn h
    cases n with
    | nil => rfl
    | cons c n =>
      obtain ⟨k, x⟩ := c
      have hx := (wfFrom_cons.1 hn).2.1
      exact absurd (h k).symm (by simpa [readByte] using hx)
  | cons c m ih =>
    obtain ⟨k, x⟩ := c
    intro n lo hm hn h
    obtain ⟨_, hx, hm'⟩ := wfFrom_cons.1 hm
    cases n with
    | nil => exact absurd (h k) (by simpa [readByte] using hx)
    | cons d n =>
      obtain ⟨l, y⟩ := d
      obtain ⟨_, hy, hn'⟩ := wfFrom_cons.1 hn
      have hkl : k = l := by
        rcases Nat.lt_trichotomy k l with hlt | heq | hgt
        · refine absurd (h k) ?_
          rw [readByte, if_pos rfl, readByte, if_neg (by omega), readByte_of_lt hn' (by omega)]
          exact hx
        · exact heq
        · refine absurd (h l).symm ?_
          rw [readByte, if_pos rfl, readByte, if_neg (by omega), readByte_of_lt hm' (by omega)]
          exact hy
      subst hkl
      have hxy : x = y := by simpa [readByte] using h k
      subst hxy
      congr 1
      refine ih n (k + 1) hm' hn' fun a => ?_
      by_cases ha : k = a
      · subst ha
        rw [readByte_of_lt hm' (by omega), readByte_of_lt hn' (by omega)]
      · simpa [readByte, ha] using h a

theorem wf_ofWords (a : Nat) (ws : List Word) : wf (ofWords a ws) = true := by
  induction ws generalizing a with
  | nil => rfl
  | cons w ws ih => exact wf_writeWord (ih (a + 1))

theorem below_ofWords {bound : Nat} (a : Nat) (ws : List Word) (h : a + ws.length ≤ bound) :
    below (2 * bound) (ofWords a ws) = true := by
  induction ws generalizing a with
  | nil => rfl
  | cons w ws ih =>
    rw [List.length_cons] at h
    exact below_writeWord (ih (a + 1) (by omega)) (by omega)

/-- The Word at `a + i` of an image placed at `a` is its `i`-th Word, and 0 past its end. -/
theorem readWord_ofWords (a i : Nat) (ws : List Word) : readWord (ofWords a ws) (a + i) = ws.getD i 0 := by
  induction ws generalizing a i with
  | nil => simp [ofWords]
  | cons w ws ih =>
    cases i with
    | zero => simpa [ofWords] using readWord_writeWord_same (wf_ofWords (a + 1) ws)
    | succ i =>
      rw [ofWords, readWord_writeWord_other (wf_ofWords (a + 1) ws) (by omega)]
      simpa [Nat.add_assoc, Nat.add_comm 1] using ih (a + 1) i

end Sys2Proof.Machine.Memory
end

