-- ==== Sys2Proof/Laws/State.lean ====
section
/-! SUPPORT. One lemma per field per update of the state, so that no later proof unfolds a record update. -/

namespace Sys2Proof.Machine

theorem RegFile.get_set (f : RegFile) (r q : Reg) (v : Word) :
    (f.set r v).get q = if q = r then v else f.get q := by
  cases r <;> cases q <;> rfl

@[simp] theorem RegFile.get_set_same (f : RegFile) (r : Reg) (v : Word) : (f.set r v).get r = v := by
  simp [RegFile.get_set]

theorem RegFile.get_set_other {f : RegFile} {r q : Reg} {v : Word} (h : q ≠ r) : (f.set r v).get q = f.get q := by
  simp [RegFile.get_set, h]

@[simp] theorem RegFile.get_zero (r : Reg) : RegFile.zero.get r = 0 := by cases r <;> rfl

/-- A register file is known by what its eight registers read. -/
theorem RegFile.ext_get {f g : RegFile} (h : ∀ r, f.get r = g.get r) : f = g := by
  obtain ⟨_, _, _, _, _, _, _, _⟩ := f
  obtain ⟨_, _, _, _, _, _, _, _⟩ := g
  have h0 := h .r0
  have h1 := h .r1
  have h2 := h .r2
  have h3 := h .r3
  have h4 := h .r4
  have h5 := h .r5
  have h6 := h .r6
  have h7 := h .r7
  simp only [RegFile.get] at h0 h1 h2 h3 h4 h5 h6 h7
  simp [*]

@[simp] theorem RunState.started_running : RunState.running.started = .running := rfl
@[simp] theorem RunState.started_ready : RunState.ready.started = .running := rfl
@[simp] theorem RunState.started_halted : RunState.halted.started = .halted := rfl
@[simp] theorem RunState.started_faulted : RunState.faulted.started = .faulted := rfl

namespace State

theorem reg_eq (s : State) (r : Reg) : s.reg r = s.regs.get r := rfl

@[simp] theorem setReg_cfg (s : State) (r : Reg) (v : Word) : (s.setReg r v).cfg = s.cfg := rfl
@[simp] theorem setReg_regs (s : State) (r : Reg) (v : Word) : (s.setReg r v).regs = s.regs.set r v := rfl
@[simp] theorem setReg_pc (s : State) (r : Reg) (v : Word) : (s.setReg r v).pc = s.pc := rfl
@[simp] theorem setReg_sp (s : State) (r : Reg) (v : Word) : (s.setReg r v).sp = s.sp := rfl
@[simp] theorem setReg_flags (s : State) (r : Reg) (v : Word) : (s.setReg r v).flags = s.flags := rfl
@[simp] theorem setReg_run (s : State) (r : Reg) (v : Word) : (s.setReg r v).run = s.run := rfl
@[simp] theorem setReg_cause (s : State) (r : Reg) (v : Word) : (s.setReg r v).cause = s.cause := rfl
@[simp] theorem setReg_entry (s : State) (r : Reg) (v : Word) : (s.setReg r v).entry = s.entry := rfl
@[simp] theorem setReg_mem (s : State) (r : Reg) (v : Word) : (s.setReg r v).mem = s.mem := rfl

@[simp] theorem setFlags_cfg (s : State) (f : Flags) : (s.setFlags f).cfg = s.cfg := rfl
@[simp] theorem setFlags_regs (s : State) (f : Flags) : (s.setFlags f).regs = s.regs := rfl
@[simp] theorem setFlags_pc (s : State) (f : Flags) : (s.setFlags f).pc = s.pc := rfl
@[simp] theorem setFlags_sp (s : State) (f : Flags) : (s.setFlags f).sp = s.sp := rfl
@[simp] theorem setFlags_flags (s : State) (f : Flags) : (s.setFlags f).flags = f := rfl
@[simp] theorem setFlags_run (s : State) (f : Flags) : (s.setFlags f).run = s.run := rfl
@[simp] theorem setFlags_cause (s : State) (f : Flags) : (s.setFlags f).cause = s.cause := rfl
@[simp] theorem setFlags_entry (s : State) (f : Flags) : (s.setFlags f).entry = s.entry := rfl
@[simp] theorem setFlags_mem (s : State) (f : Flags) : (s.setFlags f).mem = s.mem := rfl

@[simp] theorem setSp_cfg (s : State) (v : Word) : (s.setSp v).cfg = s.cfg := rfl
@[simp] theorem setSp_regs (s : State) (v : Word) : (s.setSp v).regs = s.regs := rfl
@[simp] theorem setSp_pc (s : State) (v : Word) : (s.setSp v).pc = s.pc := rfl
@[simp] theorem setSp_sp (s : State) (v : Word) : (s.setSp v).sp = v := rfl
@[simp] theorem setSp_flags (s : State) (v : Word) : (s.setSp v).flags = s.flags := rfl
@[simp] theorem setSp_run (s : State) (v : Word) : (s.setSp v).run = s.run := rfl
@[simp] theorem setSp_cause (s : State) (v : Word) : (s.setSp v).cause = s.cause := rfl
@[simp] theorem setSp_entry (s : State) (v : Word) : (s.setSp v).entry = s.entry := rfl
@[simp] theorem setSp_mem (s : State) (v : Word) : (s.setSp v).mem = s.mem := rfl

@[simp] theorem advance_cfg (s : State) (len : Nat) : (advance len s).cfg = s.cfg := rfl
@[simp] theorem advance_regs (s : State) (len : Nat) : (advance len s).regs = s.regs := rfl
@[simp] theorem advance_pc (s : State) (len : Nat) : (advance len s).pc = nextPc len s := rfl
@[simp] theorem advance_sp (s : State) (len : Nat) : (advance len s).sp = s.sp := rfl
@[simp] theorem advance_flags (s : State) (len : Nat) : (advance len s).flags = s.flags := rfl
@[simp] theorem advance_run (s : State) (len : Nat) : (advance len s).run = s.run := rfl
@[simp] theorem advance_cause (s : State) (len : Nat) : (advance len s).cause = s.cause := rfl
@[simp] theorem advance_entry (s : State) (len : Nat) : (advance len s).entry = s.entry := rfl
@[simp] theorem advance_mem (s : State) (len : Nat) : (advance len s).mem = s.mem := rfl

@[simp] theorem jumpTo_cfg (s : State) (target : Word) : (jumpTo target s).cfg = s.cfg := rfl
@[simp] theorem jumpTo_regs (s : State) (target : Word) : (jumpTo target s).regs = s.regs := rfl
@[simp] theorem jumpTo_pc (s : State) (target : Word) : (jumpTo target s).pc = target := rfl
@[simp] theorem jumpTo_sp (s : State) (target : Word) : (jumpTo target s).sp = s.sp := rfl
@[simp] theorem jumpTo_flags (s : State) (target : Word) : (jumpTo target s).flags = s.flags := rfl
@[simp] theorem jumpTo_run (s : State) (target : Word) : (jumpTo target s).run = s.run := rfl
@[simp] theorem jumpTo_cause (s : State) (target : Word) : (jumpTo target s).cause = s.cause := rfl
@[simp] theorem jumpTo_entry (s : State) (target : Word) : (jumpTo target s).entry = s.entry := rfl
@[simp] theorem jumpTo_mem (s : State) (target : Word) : (jumpTo target s).mem = s.mem := rfl

end State

end Sys2Proof.Machine
end

