-- ==== Sys2Proof/Laws/Ops.lean ====
section
/-! SUPPORT. For each shared operation, what it can do, said once: cite these instead of unfolding the operation. -/

namespace Sys2Proof.Machine

/-! ### Numbers -/

theorem trunc16_natCast (n : Nat) : trunc16 (n : Int) = BitVec.ofNat 16 n := by
  simp [trunc16]

theorem trunc16_natCast_toNat (n : Nat) : (trunc16 (n : Int)).toNat = n % 65536 := by
  simp [trunc16_natCast]

/-- `trunc16` is the residue modulo 65536, also of a negative number (R7). -/
theorem trunc16_toNat (n : Int) : ((trunc16 n).toNat : Int) = n % 65536 := by
  simp only [trunc16, BitVec.toNat_ofInt]
  omega

@[simp] theorem trunc16_toNat_self (w : Word) : trunc16 (w.toNat : Int) = w := by
  simp [trunc16_natCast]

/-- The two's-complement reading is Lean's. -/
theorem s16_eq_toInt (w : Word) : s16 w = w.toInt := by
  simp only [s16, BitVec.toInt_eq_toNat_cond]
  split_ifs <;> omega

theorem s16_bounds (w : Word) : -32768 ≤ s16 w ∧ s16 w ≤ 32767 := by
  have := w.isLt
  simp only [s16]
  split_ifs <;> omega

/-- Bit 15 is set iff the value is at least 32768. -/
theorem getLsbD_15 (w : Word) : w.getLsbD 15 = decide (32768 ≤ w.toNat) := by
  have := w.isLt
  rw [BitVec.getLsbD, Nat.testBit_eq_decide_div_mod_eq]
  congr 1
  apply propext
  omega

theorem msb_eq (w : Word) : w.msb = decide (32768 ≤ w.toNat) := by
  rw [← getLsbD_15]
  rfl

theorem nextPc_toNat (len : Nat) (s : State) : (nextPc len s).toNat = (s.pc.toNat + len) % 65536 := by
  rw [nextPc, show ((s.pc.toNat : Int) + (len : Int)) = ((s.pc.toNat + len : Nat) : Int) by push_cast; rfl,
    trunc16_natCast_toNat]

theorem eaSp_eq (off : Word) (s : State) : eaSp off s = (s.sp.toNat + off.toNat) % 65536 := by
  rw [eaSp, show ((s.sp.toNat : Int) + (off.toNat : Int)) = ((s.sp.toNat + off.toNat : Nat) : Int) by push_cast; rfl,
    trunc16_natCast_toNat]

theorem isSlot_iff (c : Config) (a : Int) : isSlot c a = true ↔ (c.stackLo : Int) ≤ a ∧ a ≤ (c.stackHi : Int) := by
  simp [isSlot]

/-! ### Commit and fault entry -/

theorem commit_eq (t : State) : commit t = .next { t with run := t.run.started } := rfl

theorem commitHalt_eq (t : State) : commitHalt t = .next { t with run := .halted } := rfl

theorem raise_eq (f : FaultCause) (s : State) : raise f s = .next { s with run := .faulted, cause := some f } := rfl

@[simp] theorem finish_ok (s t : State) : finish s (.ok t) = commit t := rfl

@[simp] theorem finish_error (s : State) (f : FaultCause) : finish s (.error f) = raise f s := rfl

/-- All that `finish` can do: a commit of what was attempted, or a fault entry from the state before the step. -/
theorem finish_next {s t : State} {r : Except FaultCause State} (h : finish s r = .next t) :
    (∃ u, r = .ok u ∧ t = { u with run := u.run.started }) ∨
      (∃ f, r = .error f ∧ t = { s with run := .faulted, cause := some f }) := by
  cases r with
  | ok u => exact .inl ⟨u, rfl, by simpa [commit, eq_comm] using h⟩
  | error f => exact .inr ⟨f, rfl, by simpa [raise, eq_comm] using h⟩

/-! ### Memory -/

theorem fetchWord_some {s : State} {a : Nat} {w : Word} (h : fetchWord s a = some w) :
    a < s.cfg.memWords ∧ w = s.mem.readWord a := by
  unfold fetchWord at h
  split_ifs at h with ha
  exact ⟨ha, by simpa [eq_comm] using h⟩

theorem fetchWord_of_lt {s : State} {a : Nat} (h : a < s.cfg.memWords) : fetchWord s a = some (s.mem.readWord a) :=
  if_pos h

theorem fetchWord_of_le {s : State} {a : Nat} (h : s.cfg.memWords ≤ a) : fetchWord s a = none :=
  if_neg (by omega)

theorem memRead_of_lt {s : State} {a : Nat} (h : a < s.cfg.memWords) : memRead s a = .ok (s.mem.readWord a) :=
  if_pos h

theorem memRead_of_le {s : State} {a : Nat} (h : s.cfg.memWords ≤ a) : memRead s a = .error .memoryOutOfBounds :=
  if_neg (by omega)

theorem memWrite_of_lt {s : State} {a : Nat} {v : Word} (h : a < s.cfg.memWords) :
    memWrite s a v = .ok { s with mem := s.mem.writeWord a v } :=
  if_pos h

theorem memWrite_of_le {s : State} {a : Nat} {v : Word} (h : s.cfg.memWords ≤ a) :
    memWrite s a v = .error .memoryOutOfBounds :=
  if_neg (by omega)

/-! ### The stack -/

/-- A push into a slot: `sp - 1` is a natural number below `sp`, so nothing wraps. -/
theorem push_of_slot {s : State} {v : Word} (h : isSlot s.cfg ((s.sp.toNat : Int) - 1) = true) :
    push v s = .ok { s with mem := s.mem.writeWord (s.sp.toNat - 1) v, sp := trunc16 ((s.sp.toNat : Int) - 1) } := by
  have e : ((s.sp.toNat : Int) - 1).toNat = s.sp.toNat - 1 := by omega
  simp only [push, h, if_true, e]

theorem push_of_not_slot {s : State} {v : Word} (h : isSlot s.cfg ((s.sp.toNat : Int) - 1) = false) :
    push v s = .error .stackOverflow := by
  simp [push, h]

/-- After a push `sp` is one less; `sp` was at least 1, as -1 is never a slot. -/
theorem pushed_sp {s : State} (h : isSlot s.cfg ((s.sp.toNat : Int) - 1) = true) :
    1 ≤ s.sp.toNat ∧ (trunc16 ((s.sp.toNat : Int) - 1)).toNat = s.sp.toNat - 1 := by
  have h1 := (isSlot_iff _ _).1 h
  have h2 := s.sp.isLt
  have h3 := trunc16_toNat ((s.sp.toNat : Int) - 1)
  constructor <;> omega

/-- In a legal `Config` every slot is a valid address (R111). -/
theorem slot_valid {c : Config} {a : Int} (hc : c.wf = true) (h : isSlot c a = true) :
    0 ≤ a ∧ a.toNat < c.memWords := by
  have h1 := (isSlot_iff _ _).1 h
  have h2 := of_decide_eq_true hc
  constructor <;> omega

theorem pop_of_slot {s : State} (h : isSlot s.cfg s.sp.toNat = true) :
    pop s = .ok (s.mem.readWord s.sp.toNat, { s with sp := trunc16 (s.sp.toNat + 1) }) := by
  simp [pop, h]

theorem pop_of_not_slot {s : State} (h : isSlot s.cfg s.sp.toNat = false) : pop s = .error .stackUnderflow := by
  simp [pop, h]

/-- In a legal `Config` `sp + 1` never wraps after a pop (R112). -/
theorem popped_sp {s : State} (hc : s.cfg.wf = true) (h : isSlot s.cfg s.sp.toNat = true) :
    (trunc16 ((s.sp.toNat : Int) + 1)).toNat = s.sp.toNat + 1 := by
  have h1 := (isSlot_iff _ _).1 h
  have h2 := of_decide_eq_true hc
  have h3 := trunc16_toNat ((s.sp.toNat : Int) + 1)
  omega

/-! ### The templates of the instruction families -/

theorem aluWrite_eq (rd : Reg) (len : Nat) (r : AluResult) (s : State) :
    aluWrite rd len r s = .next { s with regs := s.regs.set rd r.value, flags := r.flags, pc := nextPc len s,
                                         run := s.run.started } := rfl

theorem aluTest_eq (len : Nat) (r : AluResult) (s : State) :
    aluTest len r s = .next { s with flags := r.flags, pc := nextPc len s, run := s.run.started } := rfl

theorem aluTry_ok (rd : Reg) (len : Nat) (r : AluResult) (s : State) :
    aluTry rd len (.ok r) s = aluWrite rd len r s := rfl

theorem aluTry_error (rd : Reg) (len : Nat) (f : FaultCause) (s : State) :
    aluTry rd len (.error f) s = raise f s := rfl

theorem loadReg_of_lt {rd : Reg} {len ea : Nat} {s : State} (h : ea < s.cfg.memWords) :
    loadReg rd len ea s = .next { s with regs := s.regs.set rd (s.mem.readWord ea), pc := nextPc len s,
                                         run := s.run.started } := by
  rw [loadReg, memRead_of_lt h]
  rfl

theorem loadReg_of_le {rd : Reg} {len ea : Nat} {s : State} (h : s.cfg.memWords ≤ ea) :
    loadReg rd len ea s = raise .memoryOutOfBounds s := by
  rw [loadReg, memRead_of_le h]
  rfl

theorem storeReg_of_lt {rs : Reg} {len ea : Nat} {s : State} (h : ea < s.cfg.memWords) :
    storeReg rs len ea s = .next { s with mem := s.mem.writeWord ea (s.reg rs), pc := nextPc len s,
                                          run := s.run.started } := by
  rw [storeReg, memWrite_of_lt h]
  rfl

theorem storeReg_of_le {rs : Reg} {len ea : Nat} {s : State} (h : s.cfg.memWords ≤ ea) :
    storeReg rs len ea s = raise .memoryOutOfBounds s := by
  rw [storeReg, memWrite_of_le h]
  rfl

theorem jumpIf_eq (cond : Bool) (target : Word) (len : Nat) (s : State) :
    jumpIf cond target len s = .next { s with pc := if cond then target else nextPc len s, run := s.run.started } := by
  cases cond <;> rfl

end Sys2Proof.Machine
end

