-- ==== Sys2Proof/Laws/Exec.lean ====
section
/-! SUPPORT. What one instruction and one step can do, said once: statements about every instruction are cases on
`Effect`, not an unfolding of `exec`. -/

namespace Sys2Proof.Laws

open Sys2Proof.Machine

/-! ### What the shared operations can do -/

/-- `trunc16(pc + len)` is addition on 16 bits. -/
theorem nextPc_eq_add (len : Nat) (s : State) : nextPc len s = s.pc + BitVec.ofNat 16 len := by
  apply BitVec.eq_of_toNat_eq
  simp [nextPc_toNat]

theorem pushSlot_iff (s : State) : PushSlot s ↔ isSlot s.cfg ((s.sp.toNat : Int) - 1) = true := (isSlot_iff _ _).symm

theorem popSlot_iff (s : State) : PopSlot s ↔ isSlot s.cfg s.sp.toNat = true := by
  rw [isSlot_iff]
  simp [PopSlot]

/-- All that an instruction which pushes can do. -/
theorem finish_push (s : State) (v : Word) (g : State → State) :
    (∃ u, finish s ((push v s).map g) = commit (g u) ∧ isSlot s.cfg ((s.sp.toNat : Int) - 1) = true ∧
      u = { s with mem := s.mem.writeWord (s.sp.toNat - 1) v, sp := trunc16 ((s.sp.toNat : Int) - 1) }) ∨
    finish s ((push v s).map g) = .next (faultedWith .stackOverflow s) := by
  cases h : isSlot s.cfg ((s.sp.toNat : Int) - 1)
  · right; rw [push_of_not_slot h]; rfl
  · left; rw [push_of_slot h]; exact ⟨_, rfl, rfl, rfl⟩

/-- All that an instruction which pops can do. -/
theorem finish_pop (s : State) (g : Word × State → State) :
    (∃ u, finish s ((pop s).map g) = commit (g (s.mem.readWord s.sp.toNat, u)) ∧ isSlot s.cfg s.sp.toNat = true ∧
      u = { s with sp := trunc16 (s.sp.toNat + 1) }) ∨
    finish s ((pop s).map g) = .next (faultedWith .stackUnderflow s) := by
  cases h : isSlot s.cfg s.sp.toNat
  · right; rw [pop_of_not_slot h]; rfl
  · left; rw [pop_of_slot h]; exact ⟨_, rfl, rfl, rfl⟩

/-- All that a load can do. -/
theorem loadReg_cases (rd : Reg) (len ea : Nat) (s : State) :
    loadReg rd len ea s = .next { s with regs := s.regs.set rd (s.mem.readWord ea), pc := nextPc len s,
                                         run := s.run.started } ∨
    loadReg rd len ea s = .next (faultedWith .memoryOutOfBounds s) := by
  rcases lt_or_ge ea s.cfg.memWords with h | h
  · exact .inl (loadReg_of_lt h)
  · exact .inr (loadReg_of_le h)

/-- All that a store can do. -/
theorem storeReg_cases (rs : Reg) (len ea : Nat) (s : State) :
    (ea < s.cfg.memWords ∧
      storeReg rs len ea s = .next { s with mem := s.mem.writeWord ea (s.reg rs), pc := nextPc len s,
                                            run := s.run.started }) ∨
    storeReg rs len ea s = .next (faultedWith .memoryOutOfBounds s) := by
  rcases lt_or_ge ea s.cfg.memWords with h | h
  · exact .inl ⟨h, storeReg_of_lt h⟩
  · exact .inr (storeReg_of_le h)

theorem divResult_cases (a b : Word) : (∃ r, divResult a b = .ok r) ∨ divResult a b = .error .divisionByZero := by
  unfold divResult
  split_ifs
  exacts [.inr rfl, .inl ⟨_, rfl⟩]

theorem modResult_cases (a b : Word) : (∃ r, modResult a b = .ok r) ∨ modResult a b = .error .divisionByZero := by
  unfold modResult
  split_ifs
  exacts [.inr rfl, .inl ⟨_, rfl⟩]

/-! ### The instructions that read or write memory -/

/-- A ST in any mode to a valid address. -/
theorem exec_storeForm {s : State} {i : Instr} {ea : Nat} {v : Word} (h : StoreForm s i ea v)
    (hea : ea < s.cfg.memWords) :
    exec i s = .next { s with mem := s.mem.writeWord ea v, pc := nextPc i.len s, run := s.run.started } := by
  cases h <;> exact storeReg_of_lt hea

/-- A LD in any mode from a valid address. -/
theorem exec_loadForm {s : State} {i : Instr} {ea len : Nat} {rd : Reg} (h : LoadForm s i ea rd len)
    (hea : ea < s.cfg.memWords) :
    exec i s = .next { s with regs := s.regs.set rd (s.mem.readWord ea), pc := nextPc len s, run := s.run.started } := by
  cases h <;> exact loadReg_of_lt hea

/-- Every instruction that writes memory: which Word changes, and that only `sp`, `pc` and `run` change beside it. -/
theorem exec_writesWord {s : State} {i : Instr} {a : Nat} {v : Word} (h : WritesWord s i a v) :
    ∃ sp pc, exec i s = .next { s with mem := s.mem.writeWord a v, sp := sp, pc := pc, run := s.run.started } := by
  have pushed {w target : Word} {g : State → State} (hslot : PushSlot s)
      (hg : ∀ u, g u = { u with pc := target } ∨ ∃ len, g u = advance len u) :
      ∃ sp pc, finish s ((push w s).map g) =
        .next { s with mem := s.mem.writeWord (s.sp.toNat - 1) w, sp := sp, pc := pc, run := s.run.started } := by
    rw [push_of_slot ((pushSlot_iff s).1 hslot)]
    simp only [Except.map, finish_ok, commit]
    rcases hg { s with mem := s.mem.writeWord (s.sp.toNat - 1) w, sp := trunc16 ((s.sp.toNat : Int) - 1) }
      with e | ⟨len, e⟩ <;> rw [e] <;> exact ⟨_, _, rfl⟩
  cases h with
  | store h hea => exact ⟨_, _, exec_storeForm h hea⟩
  | pushImm imm h => exact pushed (target := 0) h fun u => .inr ⟨2, rfl⟩
  | pushReg rs h => exact pushed (target := 0) h fun u => .inr ⟨1, rfl⟩
  | callImm imm h =>
    rw [show s.pc + 2 = nextPc 2 s from (nextPc_eq_add 2 s).symm]
    exact pushed (target := imm) h fun u => .inl rfl
  | callReg rs h =>
    rw [show s.pc + 1 = nextPc 1 s from (nextPc_eq_add 1 s).symm]
    exact pushed (target := s.reg rs) h fun u => .inl rfl

/-! ### What one instruction can do -/

/-- All that `exec i s` can do, by the kind of instruction: which fields of `s` are replaced, and when. The value
written is left to the lemma of the instruction's own operation; where `pc` goes is said up to a jump's target. -/
inductive Effect (i : Instr) (s : State) : State → Prop
  | alu (r : AluResult)
      (h : i.record.op ∈ [.add, .sub, .mul, .div, .mod, .and, .or, .xor, .shl, .shr]) :
      Effect i s { s with regs := s.regs.set i.record.rd r.value, flags := r.flags, pc := nextPc i.len s,
                          run := s.run.started }
  | cmp (f : Flags) (h : i.record.op = .cmp) :
      Effect i s { s with flags := f, pc := nextPc i.len s, run := s.run.started }
  | reg (v : Word) (h : i.record.op ∈ [.mov, .ld, .gsp]) :
      Effect i s { s with regs := s.regs.set i.record.rd v, pc := nextPc i.len s, run := s.run.started }
  | store (v : Word) (ea : Nat) (hea : ea < s.cfg.memWords) (h : i.record.op = .st)
      (hform : StoreForm s i ea v) :
      Effect i s { s with mem := s.mem.writeWord ea v, pc := nextPc i.len s, run := s.run.started }
  | push (v target : Word) (hslot : isSlot s.cfg ((s.sp.toNat : Int) - 1) = true) (h : i.record.op ∈ [.push, .call])
      (htarget : i.record.op = .push → target = nextPc i.len s) :
      Effect i s { s with mem := s.mem.writeWord (s.sp.toNat - 1) v, sp := trunc16 ((s.sp.toNat : Int) - 1),
                          pc := target, run := s.run.started }
  | pop (v : Word) (hslot : isSlot s.cfg s.sp.toNat = true) (h : i.record.op = .pop) :
      Effect i s { s with regs := s.regs.set i.record.rd v, sp := trunc16 (s.sp.toNat + 1), pc := nextPc i.len s,
                          run := s.run.started }
  | ret (target : Word) (hslot : isSlot s.cfg s.sp.toNat = true) (h : i.record.op = .ret) :
      Effect i s { s with sp := trunc16 (s.sp.toNat + 1), pc := target, run := s.run.started }
  | ssp (v : Word) (h : i.record.op = .ssp) :
      Effect i s { s with sp := v, pc := nextPc i.len s, run := s.run.started }
  | jump (target : Word) (h : i.record.op ∈ [.jmp, .jz, .jnz, .jc, .jnc, .js, .jns, .jo, .jno])
      (htarget : ¬ SetsPc i.record.op s → target = nextPc i.len s) :
      Effect i s { s with pc := target, run := s.run.started }
  | halt (h : i = .halt) : Effect i s { s with pc := nextPc 1 s, run := .halted }
  | fault (f : FaultCause)
      (h : (f = .divisionByZero ∧ i.record.op ∈ [.div, .mod]) ∨ (f = .memoryOutOfBounds ∧ i.record.op ∈ [.ld, .st]) ∨
        (f = .stackOverflow ∧ i.record.op ∈ [.push, .call]) ∨ (f = .stackUnderflow ∧ i.record.op ∈ [.pop, .ret])) :
      Effect i s (faultedWith f s)

/-- Every instruction answers a next state, and it is one of `Effect`. -/
theorem exec_effect (i : Instr) (s : State) : ∃ t, exec i s = .next t ∧ Effect i s t := by
  cases i
  case halt => exact ⟨_, rfl, .halt rfl⟩
  case divImm rd imm =>
    rcases divResult_cases (s.reg rd) imm with ⟨r, h⟩ | h
    · exact ⟨_, congrArg (aluTry rd 2 · s) h, .alu r (by simp [Instr.record])⟩
    · exact ⟨_, congrArg (aluTry rd 2 · s) h, .fault _ (by simp [Instr.record])⟩
  case divReg rd rs =>
    rcases divResult_cases (s.reg rd) (s.reg rs) with ⟨r, h⟩ | h
    · exact ⟨_, congrArg (aluTry rd 1 · s) h, .alu r (by simp [Instr.record])⟩
    · exact ⟨_, congrArg (aluTry rd 1 · s) h, .fault _ (by simp [Instr.record])⟩
  case modImm rd imm =>
    rcases modResult_cases (s.reg rd) imm with ⟨r, h⟩ | h
    · exact ⟨_, congrArg (aluTry rd 2 · s) h, .alu r (by simp [Instr.record])⟩
    · exact ⟨_, congrArg (aluTry rd 2 · s) h, .fault _ (by simp [Instr.record])⟩
  case modReg rd rs =>
    rcases modResult_cases (s.reg rd) (s.reg rs) with ⟨r, h⟩ | h
    · exact ⟨_, congrArg (aluTry rd 1 · s) h, .alu r (by simp [Instr.record])⟩
    · exact ⟨_, congrArg (aluTry rd 1 · s) h, .fault _ (by simp [Instr.record])⟩
  case cmpImm | cmpReg => exact ⟨_, rfl, .cmp _ rfl⟩
  case movImm | movReg | gsp => exact ⟨_, rfl, .reg _ (by simp [Instr.record])⟩
  case ldInd rd rs =>
    rcases loadReg_cases rd 1 (eaInd rs s) s with h | h
    · exact ⟨_, h, .reg _ (by simp [Instr.record])⟩
    · exact ⟨_, h, .fault _ (by simp [Instr.record])⟩
  case ldDir rd x =>
    rcases loadReg_cases rd 2 (eaDir x s) s with h | h
    · exact ⟨_, h, .reg _ (by simp [Instr.record])⟩
    · exact ⟨_, h, .fault _ (by simp [Instr.record])⟩
  case ldSp rd x =>
    rcases loadReg_cases rd 2 (eaSp x s) s with h | h
    · exact ⟨_, h, .reg _ (by simp [Instr.record])⟩
    · exact ⟨_, h, .fault _ (by simp [Instr.record])⟩
  case stInd rd rs =>
    rcases storeReg_cases rs 1 (eaInd rd s) s with ⟨hl, h⟩ | h
    · exact ⟨_, h, .store _ _ hl rfl (by constructor)⟩
    · exact ⟨_, h, .fault _ (by simp [Instr.record])⟩
  case stDir x rs =>
    rcases storeReg_cases rs 2 (eaDir x s) s with ⟨hl, h⟩ | h
    · exact ⟨_, h, .store _ _ hl rfl (by constructor)⟩
    · exact ⟨_, h, .fault _ (by simp [Instr.record])⟩
  case stSp x rs =>
    rcases storeReg_cases rs 2 (eaSp x s) s with ⟨hl, h⟩ | h
    · exact ⟨_, h, .store _ _ hl rfl (by constructor)⟩
    · exact ⟨_, h, .fault _ (by simp [Instr.record])⟩
  case pushImm imm =>
    rcases finish_push s imm (advance 2) with ⟨u, h, hs, rfl⟩ | h
    · exact ⟨_, h, .push _ _ hs (by simp [Instr.record]) fun _ => rfl⟩
    · exact ⟨_, h, .fault _ (by simp [Instr.record])⟩
  case pushReg rs =>
    rcases finish_push s (s.reg rs) (advance 1) with ⟨u, h, hs, rfl⟩ | h
    · exact ⟨_, h, .push _ _ hs (by simp [Instr.record]) fun _ => rfl⟩
    · exact ⟨_, h, .fault _ (by simp [Instr.record])⟩
  case callImm imm =>
    rcases finish_push s (nextPc 2 s) (jumpTo imm) with ⟨u, h, hs, rfl⟩ | h
    · exact ⟨_, h, .push _ _ hs (by simp [Instr.record]) (by simp [Instr.record])⟩
    · exact ⟨_, h, .fault _ (by simp [Instr.record])⟩
  case callReg rs =>
    rcases finish_push s (nextPc 1 s) (jumpTo (s.reg rs)) with ⟨u, h, hs, rfl⟩ | h
    · exact ⟨_, h, .push _ _ hs (by simp [Instr.record]) (by simp [Instr.record])⟩
    · exact ⟨_, h, .fault _ (by simp [Instr.record])⟩
  case pop rd =>
    rcases finish_pop s (fun vt => advance 1 (vt.2.setReg rd vt.1)) with ⟨u, h, hs, rfl⟩ | h
    · exact ⟨_, h, .pop _ hs rfl⟩
    · exact ⟨_, h, .fault _ (by simp [Instr.record])⟩
  case ret =>
    rcases finish_pop s (fun vt => jumpTo vt.1 vt.2) with ⟨u, h, hs, rfl⟩ | h
    · exact ⟨_, h, .ret _ hs rfl⟩
    · exact ⟨_, h, .fault _ (by simp [Instr.record])⟩
  case sspImm | sspReg => exact ⟨_, rfl, .ssp _ rfl⟩
  case jmpImm | jmpReg => exact ⟨_, rfl, .jump _ (by simp [Instr.record]) fun h => absurd trivial h⟩
  case jzImm | jzReg | jnzImm | jnzReg | jcImm | jcReg | jncImm | jncReg |
      jsImm | jsReg | jnsImm | jnsReg | joImm | joReg |
      jnoImm | jnoReg => 
    exact ⟨_, jumpIf_eq .., .jump _ (by simp [Instr.record]) fun h => if_neg (by simpa [SetsPc, Instr.record] using h)⟩
  all_goals exact ⟨_, rfl, .alu _ (by simp [Instr.record])⟩

/-- The same, from a known next state: `cases` on it is the case split of every frame. -/
theorem effect_of_exec {i : Instr} {s t : State} (h : exec i s = .next t) : Effect i s t := by
  obtain ⟨t', h1, h2⟩ := exec_effect i s
  rw [h] at h1; cases h1; exact h2

/-! ### What one step can do -/

theorem step_of_active {s : State} (hc : s.cfg.wf = true) (ha : s.Active) : step s = fetchExecute s := by
  rcases ha with h | h <;> simp [step, stepOnce, hc, h]

theorem step_of_terminal {s : State} (hc : s.cfg.wf = true) (h : s.run = .halted ∨ s.run = .faulted) :
    step s = .next s := by
  rcases h with h | h <;> simp [step, stepOnce, hc, h]

theorem active_or_terminal (s : State) : s.Active ∨ s.run = .halted ∨ s.run = .faulted := by
  unfold State.Active
  cases s.run <;> simp

theorem started_of_active {s : State} (ha : s.Active) : s.run.started = .running := by
  rcases ha with h | h <;> rw [h] <;> rfl

/-- The decode fails and its fault is taken, or the decoded instruction has one of its effects. -/
theorem fetchExecute_cases (s : State) :
    (∃ e, decodeAtPc s = .err e ∧ fetchExecute s = .next (faultedWith (faultOfDecode e) s)) ∨
    (∃ i n t, decodeAtPc s = .ok i n ∧ fetchExecute s = .next t ∧ exec i s = .next t ∧ Effect i s t) := by
  cases h : decodeAtPc s with
  | err e => exact .inl ⟨e, rfl, by simp [fetchExecute, h, raise_eq, faultedWith]⟩
  | ok i n =>
    obtain ⟨t, h1, h2⟩ := exec_effect i s
    exact .inr ⟨i, n, t, rfl, by simp [fetchExecute, h, h1], h1, h2⟩

theorem stepReport_of_step {s t : State} (h : step s = .next t) : stepReport s = some (reportOf s t) := by
  unfold step at h
  simp [stepReport, h]

/-- One step and then `k`. -/
theorem core_run_succ (M : Host.Core) (k : Nat) (s t : M.State) (h : M.step s = .next t) :
    M.run (k + 1) s = M.run k t := by
  simp [Host.Core.run, h]

end Sys2Proof.Laws
end

