-- ==== Sys2Proof/Laws/PerInstr.lean ====
section
/-! SUPPORT. Statements for all instructions, made per constructor of `Instr`. -/

namespace Sys2Proof.Laws.FormOfRecord

/-- The record of the form is well-formed (R60), names that form and no other, and its Words are as many as its mode
says (R54). -/
def Statement (i : Instr) : Prop :=
  i.record.wf = true ∧ i.record.form = some i ∧ (encode i).length = i.len

theorem halt : Statement .halt := ⟨rfl, rfl, rfl⟩
theorem addImm (rd : Reg) (imm : Word) : Statement (.addImm rd imm) := ⟨rfl, rfl, rfl⟩
theorem addReg (rd : Reg) (rs : Reg) : Statement (.addReg rd rs) := ⟨rfl, rfl, rfl⟩
theorem subImm (rd : Reg) (imm : Word) : Statement (.subImm rd imm) := ⟨rfl, rfl, rfl⟩
theorem subReg (rd : Reg) (rs : Reg) : Statement (.subReg rd rs) := ⟨rfl, rfl, rfl⟩
theorem mulImm (rd : Reg) (imm : Word) : Statement (.mulImm rd imm) := ⟨rfl, rfl, rfl⟩
theorem mulReg (rd : Reg) (rs : Reg) : Statement (.mulReg rd rs) := ⟨rfl, rfl, rfl⟩
theorem divImm (rd : Reg) (imm : Word) : Statement (.divImm rd imm) := ⟨rfl, rfl, rfl⟩
theorem divReg (rd : Reg) (rs : Reg) : Statement (.divReg rd rs) := ⟨rfl, rfl, rfl⟩
theorem modImm (rd : Reg) (imm : Word) : Statement (.modImm rd imm) := ⟨rfl, rfl, rfl⟩
theorem modReg (rd : Reg) (rs : Reg) : Statement (.modReg rd rs) := ⟨rfl, rfl, rfl⟩
theorem andImm (rd : Reg) (imm : Word) : Statement (.andImm rd imm) := ⟨rfl, rfl, rfl⟩
theorem andReg (rd : Reg) (rs : Reg) : Statement (.andReg rd rs) := ⟨rfl, rfl, rfl⟩
theorem orImm (rd : Reg) (imm : Word) : Statement (.orImm rd imm) := ⟨rfl, rfl, rfl⟩
theorem orReg (rd : Reg) (rs : Reg) : Statement (.orReg rd rs) := ⟨rfl, rfl, rfl⟩
theorem xorImm (rd : Reg) (imm : Word) : Statement (.xorImm rd imm) := ⟨rfl, rfl, rfl⟩
theorem xorReg (rd : Reg) (rs : Reg) : Statement (.xorReg rd rs) := ⟨rfl, rfl, rfl⟩
theorem shlImm (rd : Reg) (imm : Word) : Statement (.shlImm rd imm) := ⟨rfl, rfl, rfl⟩
theorem shlReg (rd : Reg) (rs : Reg) : Statement (.shlReg rd rs) := ⟨rfl, rfl, rfl⟩
theorem shrImm (rd : Reg) (imm : Word) : Statement (.shrImm rd imm) := ⟨rfl, rfl, rfl⟩
theorem shrReg (rd : Reg) (rs : Reg) : Statement (.shrReg rd rs) := ⟨rfl, rfl, rfl⟩
theorem cmpImm (rd : Reg) (imm : Word) : Statement (.cmpImm rd imm) := ⟨rfl, rfl, rfl⟩
theorem cmpReg (rd : Reg) (rs : Reg) : Statement (.cmpReg rd rs) := ⟨rfl, rfl, rfl⟩
theorem movImm (rd : Reg) (imm : Word) : Statement (.movImm rd imm) := ⟨rfl, rfl, rfl⟩
theorem movReg (rd : Reg) (rs : Reg) : Statement (.movReg rd rs) := ⟨rfl, rfl, rfl⟩
theorem ldInd (rd : Reg) (rs : Reg) : Statement (.ldInd rd rs) := ⟨rfl, rfl, rfl⟩
theorem ldDir (rd : Reg) (addr : Word) : Statement (.ldDir rd addr) := ⟨rfl, rfl, rfl⟩
theorem ldSp (rd : Reg) (off : Word) : Statement (.ldSp rd off) := ⟨rfl, rfl, rfl⟩
theorem stInd (rd : Reg) (rs : Reg) : Statement (.stInd rd rs) := ⟨rfl, rfl, rfl⟩
theorem stDir (addr : Word) (rs : Reg) : Statement (.stDir addr rs) := ⟨rfl, rfl, rfl⟩
theorem stSp (off : Word) (rs : Reg) : Statement (.stSp off rs) := ⟨rfl, rfl, rfl⟩
theorem pushImm (imm : Word) : Statement (.pushImm imm) := ⟨rfl, rfl, rfl⟩
theorem pushReg (rs : Reg) : Statement (.pushReg rs) := ⟨rfl, rfl, rfl⟩
theorem pop (rd : Reg) : Statement (.pop rd) := ⟨rfl, rfl, rfl⟩
theorem sspImm (imm : Word) : Statement (.sspImm imm) := ⟨rfl, rfl, rfl⟩
theorem sspReg (rs : Reg) : Statement (.sspReg rs) := ⟨rfl, rfl, rfl⟩
theorem gsp (rd : Reg) : Statement (.gsp rd) := ⟨rfl, rfl, rfl⟩
theorem jmpImm (imm : Word) : Statement (.jmpImm imm) := ⟨rfl, rfl, rfl⟩
theorem jmpReg (rs : Reg) : Statement (.jmpReg rs) := ⟨rfl, rfl, rfl⟩
theorem jzImm (imm : Word) : Statement (.jzImm imm) := ⟨rfl, rfl, rfl⟩
theorem jzReg (rs : Reg) : Statement (.jzReg rs) := ⟨rfl, rfl, rfl⟩
theorem jnzImm (imm : Word) : Statement (.jnzImm imm) := ⟨rfl, rfl, rfl⟩
theorem jnzReg (rs : Reg) : Statement (.jnzReg rs) := ⟨rfl, rfl, rfl⟩
theorem jcImm (imm : Word) : Statement (.jcImm imm) := ⟨rfl, rfl, rfl⟩
theorem jcReg (rs : Reg) : Statement (.jcReg rs) := ⟨rfl, rfl, rfl⟩
theorem jncImm (imm : Word) : Statement (.jncImm imm) := ⟨rfl, rfl, rfl⟩
theorem jncReg (rs : Reg) : Statement (.jncReg rs) := ⟨rfl, rfl, rfl⟩
theorem jsImm (imm : Word) : Statement (.jsImm imm) := ⟨rfl, rfl, rfl⟩
theorem jsReg (rs : Reg) : Statement (.jsReg rs) := ⟨rfl, rfl, rfl⟩
theorem jnsImm (imm : Word) : Statement (.jnsImm imm) := ⟨rfl, rfl, rfl⟩
theorem jnsReg (rs : Reg) : Statement (.jnsReg rs) := ⟨rfl, rfl, rfl⟩
theorem joImm (imm : Word) : Statement (.joImm imm) := ⟨rfl, rfl, rfl⟩
theorem joReg (rs : Reg) : Statement (.joReg rs) := ⟨rfl, rfl, rfl⟩
theorem jnoImm (imm : Word) : Statement (.jnoImm imm) := ⟨rfl, rfl, rfl⟩
theorem jnoReg (rs : Reg) : Statement (.jnoReg rs) := ⟨rfl, rfl, rfl⟩
theorem callImm (imm : Word) : Statement (.callImm imm) := ⟨rfl, rfl, rfl⟩
theorem callReg (rs : Reg) : Statement (.callReg rs) := ⟨rfl, rfl, rfl⟩
theorem ret : Statement .ret := ⟨rfl, rfl, rfl⟩

end Sys2Proof.Laws.FormOfRecord
end

