-- ==== Sys2Proof/Tests/Slice0.lean ====
section
/-! SUPPORT. The model's own tests: Words written out from spec/30_encoding.md (its rules give each base) and from the
vectors of spec/95_test_vectors.md, one step at a time; and for each statement with hypotheses, a state that meets them. -/

namespace Sys2Proof.Tests

open Sys2Proof.Machine

/-! ### Helpers -/

/-- A core under `CFG_REF`, entry 0, just loaded with the code Words `ws`. -/
def start (ws : List Word) : State := { State.reset with mem := Memory.ofWords 0 ws }

/-- The same with these general registers and `sp`. -/
def startWith (ws : List Word) (regs : RegFile) (sp : Word) : State := { start ws with regs := regs, sp := sp }

/-- The register file with `v` in `r` and 0 elsewhere. -/
def only (r : Reg) (v : Word) : RegFile := RegFile.zero.set r v

def nextOf : Outcome → Option State
  | .next t => some t
  | .fault _ => none
  | .refused _ => none

/-- One step from `s` commits and gives exactly `t`, Running. -/
def stepsTo (s t : State) : Bool := nextOf (step s) == some { t with run := .running } && stepReport s == some .ok

/-- One step from `s` faults with `f`: nothing else changes. -/
def faultsWith (s : State) (f : FaultCause) : Bool :=
  nextOf (step s) == some (faultedWith f s) && stepReport s == some (.fault f)

/-- These Words are this instruction, both ways. -/
def reads (ws : List Word) (i : Instr) : Bool :=
  decode ws 0 == .ok i ws.length && encode i == ws && i.record.wf

/-- This first Word is no instruction. -/
def refuses (w : Word) (e : CodecError) : Bool := decode [w, 0] 0 == .err e

/-- Both forms of an arithmetic or logic instruction on R1, `b` as `imm` and then in R2 (95_test_vectors section 3.1). -/
def alu (base a b r : Word) (z c s v : Bool) : Bool :=
  let i := startWith [base ||| 0x0020, b] (only .r1 a) 0
  let g := startWith [base ||| 0x0128] ((only .r1 a).set .r2 b) 0
  stepsTo i { i with regs := only .r1 r, flags := ⟨z, c, s, v⟩, pc := 2 } &&
    stepsTo g { g with regs := (only .r1 r).set .r2 b, flags := ⟨z, c, s, v⟩, pc := 1 }

/-- Both forms of a conditional jump to 0x0020, the register form through R1, with the flags `f`. -/
def jump (base : Word) (f : Flags) (taken : Bool) : Bool :=
  let i := { start [base, 0x0020] with flags := f }
  let g := { startWith [base ||| 0x0104] (only .r1 0x0020) 0 with flags := f }
  stepsTo i { i with pc := if taken then 0x0020 else 2 } && stepsTo g { g with pc := if taken then 0x0020 else 1 }

/-! ### Well-formed records (R60): one ill-formed record for each check -/

theorem test_wf_bad_mode_refused : encodeRecord ⟨.jmp, .rind, .r0, .r1, none⟩ = .err .illegalOperand := by decide
theorem test_wf_unused_rd_refused : encodeRecord ⟨.push, .imm, .r3, .r0, some 1⟩ = .err .illegalOperand := by decide
theorem test_wf_unused_rd_reg_refused : encodeRecord ⟨.call, .reg, .r1, .r0, none⟩ = .err .illegalOperand := by decide
theorem test_wf_unused_rs_refused : encodeRecord ⟨.add, .imm, .r0, .r3, some 1⟩ = .err .illegalOperand := by decide
theorem test_wf_unused_rs_one_word_refused : encodeRecord ⟨.pop, .reg, .r0, .r3, none⟩ = .err .illegalOperand := by
  decide
theorem test_wf_missing_ext_refused : encodeRecord ⟨.mov, .imm, .r0, .r0, none⟩ = .err .illegalOperand := by decide
theorem test_wf_surplus_ext_refused : encodeRecord ⟨.mov, .reg, .r0, .r1, some 0⟩ = .err .illegalOperand := by decide
theorem test_wf_halt_with_operand_refused : encodeRecord ⟨.halt, .reg, .r1, .r0, none⟩ = .err .illegalOperand := by
  decide
theorem test_wf_store_unused_rd_refused : encodeRecord ⟨.st, .mdir, .r1, .r3, some 5⟩ = .err .illegalOperand := by
  decide
theorem test_wf_accepts : encodeRecord ⟨.mov, .imm, .r0, .r0, some 5⟩ = .ok [0x6800, 0x0005] := by decide

/-! ### Decoding and encoding, every form (30_encoding section 10, 95_test_vectors section 2.1) -/

theorem test_decode_alu_1 :
    reads [0x10E0, 0x0000] (.addImm .r7 0) && reads [0x1104] (.addReg .r0 .r1) &&
    reads [0x18E0, 0xFFFF] (.subImm .r7 0xFFFF) && reads [0x19AC] (.subReg .r5 .r3) &&
    reads [0x20A0, 0x8001] (.mulImm .r5 0x8001) && reads [0x2148] (.mulReg .r2 .r2) &&
    reads [0x2860, 0x7FFF] (.divImm .r3 0x7FFF) && reads [0x29AC] (.divReg .r5 .r3) := by decide

theorem test_decode_alu_2 :
    reads [0x3080, 0x8000] (.modImm .r4 0x8000) && reads [0x31AC] (.modReg .r5 .r3) &&
    reads [0x38A0, 0x8001] (.andImm .r5 0x8001) && reads [0x39B8] (.andReg .r5 .r6) &&
    reads [0x40C0, 0x0001] (.orImm .r6 1) && reads [0x41AC] (.orReg .r5 .r3) &&
    reads [0x48A0, 0x8001] (.xorImm .r5 0x8001) && reads [0x493C] (.xorReg .r1 .r7) := by decide

theorem test_decode_alu_3 :
    reads [0x5000, 0x0004] (.shlImm .r0 4) && reads [0x51AC] (.shlReg .r5 .r3) &&
    reads [0x58A0, 0x8001] (.shrImm .r5 0x8001) && reads [0x59E0] (.shrReg .r7 .r0) &&
    reads [0x60A0, 0x8001] (.cmpImm .r5 0x8001) && reads [0x614C] (.cmpReg .r2 .r3) := by decide

theorem test_decode_move_memory :
    reads [0x6800, 0x0005] (.movImm .r0 5) && reads [0x69FC] (.movReg .r7 .r7) &&
    reads [0x7274] (.ldInd .r3 .r5) && reads [0x7360, 0x0123] (.ldDir .r3 0x0123) &&
    reads [0x7460, 0xFFFF] (.ldSp .r3 0xFFFF) && reads [0x7AAC] (.stInd .r5 .r3) &&
    reads [0x7B0C, 0x0123] (.stDir 0x0123 .r3) && reads [0x7C0C, 0x0002] (.stSp 2 .r3) := by decide

theorem test_decode_stack :
    reads [0x8000, 0x1234] (.pushImm 0x1234) && reads [0x8118] (.pushReg .r6) && reads [0x89C0] (.pop .r6) &&
    reads [0x9000, 0x0400] (.sspImm 0x0400) && reads [0x9104] (.sspReg .r1) && reads [0x9980] (.gsp .r4) := by decide

theorem test_decode_jump_1 :
    reads [0xA000, 0x0010] (.jmpImm 0x0010) && reads [0xA108] (.jmpReg .r2) &&
    reads [0xA800, 0x0020] (.jzImm 0x0020) && reads [0xA90C] (.jzReg .r3) && reads [0xB000, 0x0004] (.jnzImm 4) &&
    reads [0xB10C] (.jnzReg .r3) && reads [0xB800, 0x8001] (.jcImm 0x8001) && reads [0xB91C] (.jcReg .r7) := by decide

theorem test_decode_jump_2 :
    reads [0xC000, 0x0000] (.jncImm 0) && reads [0xC10C] (.jncReg .r3) && reads [0xC800, 0xFFFF] (.jsImm 0xFFFF) &&
    reads [0xC90C] (.jsReg .r3) && reads [0xD000, 0x8001] (.jnsImm 0x8001) && reads [0xD100] (.jnsReg .r0) &&
    reads [0xD800, 0x8000] (.joImm 0x8000) && reads [0xD90C] (.joReg .r3) &&
    reads [0xE000, 0x7FFF] (.jnoImm 0x7FFF) && reads [0xE10C] (.jnoReg .r3) := by decide

theorem test_decode_call_ret_halt :
    reads [0xE800, 0x0020] (.callImm 0x0020) && reads [0xE90C] (.callReg .r3) && reads [0xF100] .ret &&
    reads [0x0900] .halt := by decide

/-! ### Invalid encodings (95_test_vectors section 2.2) -/

theorem test_reserved_opcodes :
    ([0x0000, 0x07FF, 0xF800, 0xFFFF].all fun w => refuses w .illegalOpcode) = true := by decide

theorem test_bad_modes :
    ([0x0800, 0x0A00, 0x1200, 0x1300, 0x1400, 0x1500, 0x1700, 0x6D00, 0x6A00, 0x7000, 0x7100, 0x7800,
      0x7900, 0x8200, 0x8800, 0x9800, 0x9200, 0xA200, 0xA300, 0xA400, 0xEA00, 0xF000].all
      fun w => refuses w .illegalOperand) = true := by
  decide

theorem test_bad_fields :
    ([0x0901, 0x0902, 0x0920, 0x0904, 0x1004, 0x1101, 0x6804, 0x7304, 0x7404, 0x7B20, 0x7C20, 0x8020,
      0x8004, 0x8120, 0x8904, 0xA120, 0xF104, 0xF103].all fun w => refuses w .illegalOperand) = true := by decide

theorem test_out_of_range : decode [0x6800] 0 = .err .outOfRange ∧ decode [0x0900] 1 = .err .outOfRange ∧
    decode [0x6900] 0 = .ok (.movReg .r0 .r0) 1 := by decide

/-- "A failed decode consumes one Word" (R70). -/
theorem test_failed_decode_consumes_one : (decode [0x0000, 0x6800, 0x0005] 0).consumed = 1 ∧
    decode [0x0000, 0x6800, 0x0005] 1 = .ok (.movImm .r0 5) 2 := by decide

/-- `ST [SP+2], R3`: the operands in assembly order (R61). -/
theorem test_operands : (Instr.stSp 2 .r3).operands = [.stackRel 2, .reg .r3] ∧
    (Instr.ldInd .r3 .r5).operands = [.reg .r3, .indReg .r5] := by decide

/-- The number of a table row: the first Word in bits 15..0, the operand Word in bits 31..16. -/
theorem test_decodeTableWord : decodeTableWord 16 0x1104 = some (.addReg .r0 .r1) ∧
    decodeTableWord 32 0x00056800 = some (.movImm .r0 5) ∧ decodeTableWord 16 0x6800 = some (.movImm .r0 0) ∧
    decodeTableWord 16 0x0000 = none := by decide

theorem test_withFetchWord_runs_it :
    nextOf (step (State.reset.withFetchWord 32 0x00056800)) = nextOf (exec (.movImm .r0 5)
      (State.reset.withFetchWord 32 0x00056800)) := by decide

/-! ### Arithmetic and logic (95_test_vectors section 3.1) -/

/-- Both carry and overflow. -/
theorem test_add_1 : alu 0x1000 0x8000 0x8000 0x0000 true true false true := by decide
/-- Signed overflow without a carry. -/
theorem test_add_2 : alu 0x1000 0x7FFF 0x0001 0x8000 false false true true := by decide
/-- Borrow and overflow. -/
theorem test_sub_1 : alu 0x1800 0x7FFF 0xFFFF 0x8000 false true true true := by decide
/-- Overflow without a borrow. -/
theorem test_sub_2 : alu 0x1800 0x8000 0x0001 0x7FFF false false false true := by decide
/-- The product fits signed and not unsigned. -/
theorem test_mul_1 : alu 0x2000 0xFFFF 0xFFFF 0x0001 false true false false := by decide
/-- The product fits unsigned and not signed. -/
theorem test_mul_2 : alu 0x2000 0x4000 0x0002 0x8000 false false true true := by decide
/-- The division is unsigned. -/
theorem test_div_1 : alu 0x2800 0xFFFF 0x0002 0x7FFF false false false false := by decide
/-- The remainder is unsigned. -/
theorem test_mod_1 : alu 0x3000 0xFFFF 0x8000 0x7FFF false false false false := by decide
/-- Bitwise. -/
theorem test_and_1 : alu 0x3800 0xF0F0 0xFF00 0xF000 false false true false := by decide
/-- Bitwise. -/
theorem test_or_1 : alu 0x4000 0x00F0 0x0F00 0x0FF0 false false false false := by decide
/-- Bitwise. -/
theorem test_xor_1 : alu 0x4800 0x00FF 0xFFFF 0xFF00 false false true false := by decide
/-- Count 16: C is bit 0. -/
theorem test_shl_1 : alu 0x5000 0x0001 0x0010 0x0000 true true false false := by decide
/-- The whole count is used. -/
theorem test_shl_2 : alu 0x5000 0xFFFF 0xFFFF 0x0000 true false false false := by decide +kernel
/-- Count 16: C is bit 15. -/
theorem test_shr_1 : alu 0x5800 0x8000 0x0010 0x0000 true true false false := by decide
/-- Zero fill. -/
theorem test_shr_2 : alu 0x5800 0x8001 0x0001 0x4000 false true false false := by decide
/-- R1 is unchanged; S differs from V. -/
theorem test_cmp_1 : alu 0x6000 0x8000 0x0001 0x8000 false false false true := by decide
/-- R1 is unchanged; S equals V. -/
theorem test_cmp_2 : alu 0x6000 0x0000 0x8000 0x0000 false true true true := by decide

/-- `DIV R1, R1` with R1 = 0: the divisor is read before anything is written, and only run and cause change. -/
theorem test_div_by_zero : faultsWith (startWith [0x2924] RegFile.zero 0) .divisionByZero := by decide
theorem test_mod_by_zero :
    faultsWith { startWith [0x3020, 0] (only .r1 7) 0 with flags := ⟨true, false, false, true⟩ } .divisionByZero := by
  decide
/-- `SHL R2, R2`: source and destination are one register. -/
theorem test_shl_same_register :
    stepsTo (startWith [0x5148] (only .r2 3) 0) { startWith [0x5148] (only .r2 0x18) 0 with pc := 1 } := by decide

/-! ### Move, load, store (section 3.2) -/

theorem test_mov_reg_keeps_flags :
    let s := { startWith [0x6970] (only .r4 0xABCD) 0 with flags := ⟨false, false, true, true⟩ }
    stepsTo s { s with regs := (only .r4 0xABCD).set .r3 0xABCD, pc := 1 } := by decide
/-- `LD R1, [R1]`, also at the last valid address. -/
theorem test_ld_indirect_same_register :
    let s := { startWith [0x7224] (only .r1 0x03FF) 0 with mem := Memory.ofWords 0x03FF [0x0042] |>.writeWord 0 0x7224 }
    stepsTo s { s with regs := only .r1 0x0042, pc := 1 } := by decide
theorem test_ld_direct_out_of_range : faultsWith (start [0x7360, 0x0400]) .memoryOutOfBounds := by decide
/-- `LD R3, [SP+1]` with `sp = 0xFFFF` wraps to address 0. -/
theorem test_ld_sp_wraps :
    let s := startWith [0x7460, 0x0001] RegFile.zero 0xFFFF
    stepsTo s { s with regs := only .r3 0x7460, pc := 2 } := by decide
/-- `ST [R1], R1`. -/
theorem test_st_indirect_same_register :
    let s := startWith [0x7A24] (only .r1 0x0201) 0
    stepsTo s { s with mem := s.mem.writeWord 0x0201 0x0201, pc := 1 } := by decide
/-- `ST [SP-1], R3`: below the stack pointer, with no region check. -/
theorem test_st_sp_below :
    let s := startWith [0x7C0C, 0xFFFF] (only .r3 0x1234) 0x03F0
    stepsTo s { s with mem := s.mem.writeWord 0x03EF 0x1234, pc := 2 } := by decide
theorem test_st_out_of_range : faultsWith (startWith [0x7B0C, 0x0400] (only .r3 0x1234) 0) .memoryOutOfBounds := by
  decide
/-- `ST [0x0001], R3` overwrites its own trailing Word and completes as decoded (R42). -/
theorem test_st_own_trailing_word :
    let s := startWith [0x7B0C, 0x0001] (only .r3 0x0900) 0
    stepsTo s { s with mem := Memory.ofWords 0 [0x7B0C, 0x0900], pc := 2 } := by decide

/-! ### Stack (section 3.3) -/

theorem test_push_lowest_slot :
    let s := startWith [0x8000, 0x0001] RegFile.zero 0x03C1
    stepsTo s { s with mem := s.mem.writeWord 0x03C0 1, sp := 0x03C0, pc := 2 } := by decide
theorem test_push_overflow : faultsWith (startWith [0x8100] (only .r0 5) 0x03C0) .stackOverflow ∧
    faultsWith (start [0x8000, 1]) .stackOverflow ∧ faultsWith (startWith [0x8000, 1] RegFile.zero 0x0401)
      .stackOverflow := by decide
theorem test_pop_last_slot :
    let s := { startWith [0x89C0] RegFile.zero 0x03FF with mem := (Memory.ofWords 0 [0x89C0]).writeWord 0x03FF 0x1234 }
    stepsTo s { s with regs := only .r6 0x1234, sp := 0x0400, pc := 1 } := by decide
theorem test_pop_underflow : faultsWith (startWith [0x89C0] RegFile.zero 0x0400) .stackUnderflow ∧
    faultsWith (startWith [0x89C0] RegFile.zero 0x03BF) .stackUnderflow := by decide
theorem test_ssp_unchecked :
    let s := startWith [0x9104] (only .r1 0x1234) 0
    stepsTo s { s with sp := 0x1234, pc := 1 } := by decide
theorem test_gsp :
    let s := startWith [0x9980] RegFile.zero 0x03FE
    stepsTo s { s with regs := only .r4 0x03FE, pc := 1 } := by decide

/-! ### Control flow (section 3.4) -/

/-- `JMP 0x0400` commits; the next step faults. -/
theorem test_jmp_out_of_memory :
    stepsTo (start [0xA000, 0x0400]) { start [0xA000, 0x0400] with pc := 0x0400 } ∧
      faultsWith { start [0xA000, 0x0400] with pc := 0x0400, run := .running } .memoryOutOfBounds := by decide
/-- Each conditional jump reads its own flag: the other three are the opposite. -/
theorem test_jz : jump 0xA800 ⟨true, false, false, false⟩ true ∧ jump 0xA800 ⟨false, true, true, true⟩ false := by
  decide
theorem test_jnz : jump 0xB000 ⟨false, true, true, true⟩ true ∧ jump 0xB000 ⟨true, false, false, false⟩ false := by
  decide
theorem test_jc : jump 0xB800 ⟨false, true, false, false⟩ true ∧ jump 0xB800 ⟨true, false, true, true⟩ false := by
  decide
theorem test_jnc : jump 0xC000 ⟨true, false, true, true⟩ true ∧ jump 0xC000 ⟨false, true, false, false⟩ false := by
  decide
theorem test_js : jump 0xC800 ⟨false, false, true, false⟩ true ∧ jump 0xC800 ⟨true, true, false, true⟩ false := by
  decide
theorem test_jns : jump 0xD000 ⟨true, true, false, true⟩ true ∧ jump 0xD000 ⟨false, false, true, false⟩ false := by
  decide
theorem test_jo : jump 0xD800 ⟨false, false, false, true⟩ true ∧ jump 0xD800 ⟨true, true, true, false⟩ false := by
  decide
theorem test_jno : jump 0xE000 ⟨true, true, true, false⟩ true ∧ jump 0xE000 ⟨false, false, false, true⟩ false := by
  decide
theorem test_call_reg :
    let s := startWith [0xE90C] (only .r3 0x0200) 0x03F0
    stepsTo s { s with pc := 0x0200, sp := 0x03EF, mem := s.mem.writeWord 0x03EF 1 } := by decide
theorem test_call_overflow : faultsWith (startWith [0xE800, 0x0020] RegFile.zero 0x03C0) .stackOverflow := by decide
theorem test_ret :
    let s := { startWith [0xF100] RegFile.zero 0x03FF with mem := (Memory.ofWords 0 [0xF100]).writeWord 0x03FF 6 }
    stepsTo s { s with pc := 6, sp := 0x0400 } := by decide
theorem test_ret_underflow : faultsWith (start [0xF100]) .stackUnderflow := by decide
theorem test_halt :
    nextOf (step (start [0x0900])) = some { start [0x0900] with pc := 1, run := .halted } ∧
      stepReport (start [0x0900]) = some .halted ∧ stepReport { start [0x0900] with run := .halted } = some .rejected := by
  decide

/-! ### Fetch and decode faults, priority (section 3.5) -/

/-- A core whose `pc` is the last valid address, which holds `w`. -/
def atLast (w : Word) : State := { State.reset with pc := 0x03FF, mem := Memory.ofWords 0x03FF [w] }

theorem test_fetch_beyond_memory : faultsWith { start [0x0900] with pc := 0x0400 } .memoryOutOfBounds := by decide
theorem test_zero_memory : faultsWith State.reset .illegalOpcode := by decide
theorem test_trailing_word_beyond_memory : faultsWith (atLast 0x6800) .memoryOutOfBounds ∧
    faultsWith (atLast 0x2800) .memoryOutOfBounds := by decide
theorem test_illegal_before_trailing_fetch : faultsWith (atLast 0x6804) .illegalOperand ∧
    faultsWith (atLast 0xFFFF) .illegalOpcode := by decide
theorem test_one_word_at_the_last_address : stepsTo (atLast 0x6900) { atLast 0x6900 with pc := 0x0400 } := by decide

/-- A legal `Config` with all 65536 Words, and a core at the last of them, which holds `w`. -/
def whole (w : Word) : State :=
  { State.reset with cfg := ⟨65536, 0xFF00, 0xFFFE, 1⟩, pc := 0xFFFF, mem := Memory.ofWords 0xFFFF [w] }

theorem test_pc_wraps : stepsTo (whole 0x6900) { whole 0x6900 with pc := 0 } := by decide
theorem test_trailing_fetch_does_not_wrap : faultsWith (whole 0x6800) .memoryOutOfBounds := by decide

/-! ### Reset and load (section 3.6) -/

theorem test_load_accepts :
    loadImage State.reset [1, 4, 2, 0x6800, 5] =
      .ok { State.reset with entry := 4, pc := 4, mem := Memory.ofWords 0 [0x6800, 5] } := by decide
theorem test_load_rejects : loadImage State.reset [2, 0, 1, 0x0900] = .imageFormatError ∧
    loadImage State.reset [1, 0, 2, 0x0900] = .imageFormatError ∧
    loadImage State.reset [1, 0, 1, 0x0900, 0x0900] = .imageFormatError ∧
    loadImage State.reset [1, 0] = .imageFormatError := by decide
theorem test_load_too_long :
    loadImage State.reset (1 :: 0 :: 0x0401 :: List.replicate 0x0401 0) = .imageFormatError := by decide +kernel
theorem test_reset_after_fault :
    resetCore { startWith [0x2800, 0] (only .r0 5) 0x0400 with run := .faulted, cause := some .divisionByZero } =
      start [0x2800, 0] := by decide
theorem test_reset_memory_wf : State.reset.mem.wf = true := by decide
theorem test_write_zero_unlists : (Memory.ofWords 0 [0x1234]).writeWord 0 0 = [] := by decide
theorem test_ill_formed_config_refused :
    step { State.reset with cfg := ⟨0, 0, 0, 1⟩ } = .refused .illFormedConfig := rfl
theorem test_config_constraints : Config.ref.wf = true ∧ (whole 0).cfg.wf = true ∧
    Config.wf ⟨65537, 0, 0, 1⟩ = false ∧ Config.wf ⟨16, 8, 7, 1⟩ = false ∧ Config.wf ⟨16, 8, 16, 1⟩ = false ∧
    Config.wf ⟨65536, 0, 0xFFFF, 1⟩ = false := by decide

/-! ### Witnesses: for every statement with hypotheses, something that meets them all, at the boundaries -/

theorem nextOf_some {o : Outcome} {t : State} (h : nextOf o = some t) : o = .next t := by
  cases o <;> simp_all [nextOf]

/-- A core with `PUSH R1` at `pc`, `sp` as given, R1 = 0x0400 (no valid address) and R2 = 0x03FF (the last one). -/
def pushing (sp : Word) : State := startWith [0x8104] ((only .r1 0x0400).set .r2 0x03FF) sp

theorem witness_DecodeInvertsEncode :
    ∀ k, k < (encode (.movImm .r0 5)).length → ([0, 0x6800, 5] : List Word)[1 + k]? = (encode (.movImm .r0 5))[k]? := by
  decide
theorem witness_EncodeInvertsDecode : decode [0, 0x6800, 5] 1 = .ok (.movImm .r0 5) 2 := by decide
theorem witness_WellFormedRecordsAreTheForms : (Instr.addReg .r0 .r1).record = ⟨.add, .reg, .r0, .r1, none⟩ ∧
    Instruction.wf ⟨.add, .reg, .r0, .r1, none⟩ = true ∧ Instruction.wf ⟨.add, .rind, .r0, .r1, none⟩ = false := by
  decide
theorem witness_IllegalOpcodeIffReservedOpcode : decode [0x07FF] 0 = .err .illegalOpcode ∧
    decode [0xF800] 0 = .err .illegalOpcode ∧ decode [0x0800] 0 = .err .illegalOperand ∧
    decode [0xF7FF] 0 = .err .illegalOperand := by decide
theorem witness_IllegalOperandIffNoForm : ([0, 0x1004] : List Word)[1]? = some 0x1004 ∧
    ¬ ∃ i : Instr, (encode i).head? = some 0x1004 := by
  refine ⟨rfl, ?_⟩
  rintro ⟨i, h⟩
  have h1 := Laws.checkFirst_of_head h
  rw [show checkFirst 0x1004 = .error .illegalOperand by rfl] at h1
  cases h1
theorem witness_OutOfRangeIffNeededWordMissing : decode [0x6800] 0 = .err .outOfRange ∧
    (encode (.movImm .r0 0)).length = 2 ∧ ([0x6800] : List Word)[0]? = (encode (.movImm .r0 0)).head? ∧
    decode [0x6800] 1 = .err .outOfRange := by decide
theorem witness_LengthByModeField : decode [0x7460, 1] 0 = .ok (.ldSp .r3 1) 2 ∧ decode [0x7AAC] 0 = .ok (.stInd .r5 .r3) 1 := by
  decide

/-- DIV and MOD: a divisor of 1 (the least that is not zero) completes, a divisor of 0 faults. -/
theorem witness_DivModDivisors : (1 : Word) ≠ 0 ∧
    stepsTo (startWith [0x2820, 1] (only .r1 7) 0) { startWith [0x2820, 1] (only .r1 7) 0 with pc := 2 } ∧
    stepsTo (startWith [0x3020, 1] RegFile.zero 0)
      { startWith [0x3020, 1] RegFile.zero 0 with pc := 2, flags := ⟨true, false, false, false⟩ } ∧
    faultsWith (startWith [0x2820, 0] (only .r1 7) 0) .divisionByZero := by decide

/-- LD and ST: an effective address of 0x03FF is in range and 0x0400 is not, in each mode, with canonical memory. -/
theorem witness_EffectiveAddressBounds :
    let s := pushing 0x03F8
    s.mem.wf = true ∧ eaInd .r2 s < s.cfg.memWords ∧ eaDir 0x03FF s < s.cfg.memWords ∧ eaSp 7 s < s.cfg.memWords ∧
      s.cfg.memWords ≤ eaInd .r1 s ∧ s.cfg.memWords ≤ eaDir 0x0400 s ∧ s.cfg.memWords ≤ eaSp 8 s := by decide
theorem witness_MemReadAfterMemWrite : (pushing 0).mem.wf = true ∧ 0x03FF < (pushing 0).cfg.memWords ∧
    (pushing 0).cfg.memWords ≤ 0x0400 := by decide
/-- A store to 0x03FF in each mode, and a load from it in each mode: R2 = 0x03FF and `sp` = 0x03F8. -/
theorem witness_StoreThenLoadGivesTheWord :
    let s := pushing 0x03F8
    s.mem.wf = true ∧ 0x03FF < s.cfg.memWords ∧
      (StoreForm s (.stInd .r2 .r1) 0x03FF 0x0400 ∧ StoreForm s (.stDir 0x03FF .r1) 0x03FF 0x0400 ∧
        StoreForm s (.stSp 7 .r1) 0x03FF 0x0400) ∧
      ∃ t u v, exec (.stInd .r2 .r1) s = .next t ∧ exec (.stDir 0x03FF .r1) s = .next u ∧
        exec (.stSp 7 .r1) s = .next v ∧ LoadForm t (.ldInd .r3 .r2) 0x03FF .r3 1 ∧
        LoadForm u (.ldDir .r3 0x03FF) 0x03FF .r3 2 ∧ LoadForm v (.ldSp .r3 7) 0x03FF .r3 2 :=
  ⟨by decide, by decide, ⟨.ind .r2 .r1, .dir 0x03FF .r1, .sp 7 .r1⟩, _, _, _, rfl, rfl, rfl, .ind .r3 .r2, .dir .r3 0x03FF,
    .sp .r3 7⟩
/-- `ST [0x0001], R3` at address 0 stores into its own trailing Word. -/
theorem witness_StoreIsSeenByTheNextFetch_store :
    let s := startWith [0x7B0C, 0x0001] (only .r3 0x0900) 0
    s.Inv ∧ s.Active ∧ decodeAtPc s = .ok (.stDir 1 .r3) 2 ∧ WritesWord s (.stDir 1 .r3) 1 0x0900 :=
  ⟨by decide, .inl rfl, by decide, .store (.dir 1 .r3) (by decide)⟩
/-- The other modes of ST, at the last valid address. -/
theorem witness_StoreIsSeenByTheNextFetch_modes :
    let s := startWith [0x7A44] (only .r2 0x03FF) 0
    let t := startWith [0x7C04, 0x0007] RegFile.zero 0x03F8
    s.Inv ∧ s.Active ∧ decodeAtPc s = .ok (.stInd .r2 .r1) 1 ∧ WritesWord s (.stInd .r2 .r1) 0x03FF 0 ∧
      t.Inv ∧ t.Active ∧ decodeAtPc t = .ok (.stSp 7 .r1) 2 ∧ WritesWord t (.stSp 7 .r1) 0x03FF 0 :=
  ⟨by decide, .inl rfl, by decide, .store (.ind .r2 .r1) (by decide), by decide, .inl rfl, by decide,
    .store (.sp 7 .r1) (by decide)⟩
/-- PUSH into the lowest slot and into the highest, and CALL likewise. -/
theorem witness_StoreIsSeenByTheNextFetch_stack :
    let p := startWith [0x8000, 0x1234] RegFile.zero 0x03C1
    let q := pushing 0x0400
    let c := startWith [0xE800, 0x0020] RegFile.zero 0x03C1
    let d := startWith [0xE90C] RegFile.zero 0x0400
    (p.Inv ∧ p.Active ∧ decodeAtPc p = .ok (.pushImm 0x1234) 2 ∧ WritesWord p (.pushImm 0x1234) 0x03C0 0x1234) ∧
      (q.Inv ∧ q.Active ∧ decodeAtPc q = .ok (.pushReg .r1) 1 ∧ WritesWord q (.pushReg .r1) 0x03FF 0x0400) ∧
      (c.Inv ∧ c.Active ∧ decodeAtPc c = .ok (.callImm 0x0020) 2 ∧ WritesWord c (.callImm 0x0020) 0x03C0 2) ∧
      (d.Inv ∧ d.Active ∧ decodeAtPc d = .ok (.callReg .r3) 1 ∧ WritesWord d (.callReg .r3) 0x03FF 1) :=
  ⟨⟨by decide, .inl rfl, by decide, .pushImm 0x1234 ((Laws.pushSlot_iff _).2 (by decide))⟩,
    ⟨by decide, .inl rfl, by decide, .pushReg .r1 ((Laws.pushSlot_iff _).2 (by decide))⟩,
    ⟨by decide, .inl rfl, by decide, .callImm 0x0020 ((Laws.pushSlot_iff _).2 (by decide))⟩,
    ⟨by decide, .inl rfl, by decide, .callReg .r3 ((Laws.pushSlot_iff _).2 (by decide))⟩⟩

/-- PUSH and CALL: `sp` from 0x03C1 to 0x0400 has a slot below it; 0, 0x03C0 and 0x0401 have none. -/
theorem witness_PushSlot : (pushing 0x03C1).mem.wf = true ∧ PushSlot (pushing 0x03C1) ∧ PushSlot (pushing 0x0400) ∧
    ¬ PushSlot (pushing 0x03C0) ∧ ¬ PushSlot (pushing 0x0401) ∧ ¬ PushSlot (pushing 0) ∧ (pushing 0).sp = 0 := by
  simp only [Laws.pushSlot_iff]
  decide
/-- POP and RET: `sp` from 0x03C0 to 0x03FF is a slot; 0x03BF and 0x0400 are not. -/
theorem witness_PopSlot : (pushing 0x03C0).cfg.wf = true ∧ PopSlot (pushing 0x03C0) ∧ PopSlot (pushing 0x03FF) ∧
    ¬ PopSlot (pushing 0x03BF) ∧ ¬ PopSlot (pushing 0x0400) := by
  simp only [Laws.popSlot_iff]
  decide
theorem witness_PopReturnsWhatPushPushed : ∃ t u, (pushing 0x03C1).Inv ∧ PushSlot (pushing 0x03C1) ∧
    exec (.pushReg .r1) (pushing 0x03C1) = .next t ∧ exec (.pushImm 7) (pushing 0x03C1) = .next u :=
  ⟨_, _, by decide, (Laws.pushSlot_iff _).2 (by decide), rfl, rfl⟩
theorem witness_RetReturnsPastTheCall : ∃ t u, (pushing 0x0400).Inv ∧ PushSlot (pushing 0x0400) ∧
    exec (.callImm 0x0020) (pushing 0x0400) = .next t ∧ exec (.callReg .r2) (pushing 0x0400) = .next u :=
  ⟨_, _, by decide, (Laws.pushSlot_iff _).2 (by decide), rfl, rfl⟩
/-- A popped return address of 0x0400: `RET` completes and the next step faults. -/
theorem witness_RetPopsIntoPc_bad_target :
    let s := { pushing 0x03FF with mem := Memory.ofWords 0x03FF [0x0400] }
    s.cfg.wf = true ∧ PopSlot s ∧ s.Active ∧ ∃ t, exec .ret s = .next t ∧ s.cfg.memWords ≤ t.pc.toNat :=
  ⟨by decide, (Laws.popSlot_iff _).2 (by decide), .inl rfl, _, rfl, by decide⟩
theorem witness_JmpSetsPc_bad_target : (start []).cfg.wf = true ∧ (start []).Active ∧
    (start []).cfg.memWords ≤ (0x0400 : Word).toNat := ⟨by decide, .inl rfl, by decide⟩
theorem witness_HaltAdvancesAndHalts : (start [0x0900]).cfg.wf = true ∧ (start [0x0900]).Active ∧
    decodeAtPc (start [0x0900]) = .ok .halt 1 ∧ ∃ s : State, s.cfg.wf = true ∧ s.run = .halted :=
  ⟨by decide, .inl rfl, by decide, { start [] with run := .halted }, by decide, rfl⟩

/-- The frames of all instructions: a form outside each list, and one inside each, completes. -/
theorem witness_Frames : ∃ t u v w x, exec (.movReg .r0 .r1) (pushing 0x03FF) = .next t ∧
    (Instr.movReg .r0 .r1).record.op ∉ [.add, .sub, .mul, .div, .mod, .and, .or, .xor, .shl, .shr, .cmp] ∧
    (Instr.movReg .r0 .r1).record.op ∉ [.jz, .jnz, .jc, .jnc, .js, .jns, .jo, .jno] ∧
    (Instr.movReg .r0 .r1).record.op ∉ [.push, .pop, .call, .ret, .ssp] ∧
    (Instr.movReg .r0 .r1).record.op ∉ [.st, .push, .call] ∧
    exec (.callReg .r2) (pushing 0x03FF) = .next u ∧ exec (.pop .r3) (pushing 0x03FF) = .next v ∧
    exec (.stInd .r2 .r1) (pushing 0x03FF) = .next w ∧ exec (.cmpReg .r1 .r2) (pushing 0x03FF) = .next x ∧
    (pushing 0x03FF).cfg.wf = true ∧ (pushing 0x03FF).mem.wf = true :=
  ⟨_, _, _, _, _, rfl, by decide, by decide, by decide, by decide, rfl, rfl, rfl, rfl, by decide, by decide⟩

theorem witness_FaultEntryChangesOnlyRunAndCause : ∃ t, (start [0xF100]).cfg.wf = true ∧ (start [0xF100]).Active ∧
    step (start [0xF100]) = .next t ∧ t.run = .faulted :=
  ⟨faultedWith .stackUnderflow (start [0xF100]), by decide, .inl rfl, nextOf_some (by decide), rfl⟩
theorem witness_StepRunsTheDecodedInstruction : (pushing 0x0400).cfg.wf = true ∧ (pushing 0x0400).Active ∧
    decodeAtPc (pushing 0x0400) = .ok (.pushReg .r1) 1 := ⟨by decide, .inl rfl, by decide⟩
theorem witness_FaultPriorityOfAStep_fetch : ∃ s : State, s.cfg.wf = true ∧ s.Active ∧ s.cfg.memWords ≤ s.pc.toNat :=
  ⟨{ start [] with pc := 0x0400 }, by decide, .inl rfl, by decide⟩
theorem witness_FaultPriorityOfAStep_opcode : (atLast 0xF800).pc.toNat < (atLast 0xF800).cfg.memWords ∧
    0xF800 ≤ ((atLast 0xF800).mem.readWord (atLast 0xF800).pc.toNat).toNat := by decide
theorem witness_FaultPriorityOfAStep_operand : (atLast 0x6804).mem.readWord (atLast 0x6804).pc.toNat = 0x6804 ∧
    0x07FF < (0x6804 : Word).toNat ∧ (0x6804 : Word).toNat < 0xF800 ∧
    ¬ ∃ i : Instr, (encode i).head? = some 0x6804 := by
  refine ⟨by decide, by decide, by decide, ?_⟩
  rintro ⟨i, h⟩
  have h1 := Laws.checkFirst_of_head h
  rw [show checkFirst 0x6804 = .error .illegalOperand by rfl] at h1
  cases h1
theorem witness_FaultPriorityOfAStep_trailing :
    (encode (.divImm .r0 0)).head? = some ((atLast 0x2800).mem.readWord (atLast 0x2800).pc.toNat) ∧
    (encode (.divImm .r0 0)).length = 2 ∧ (atLast 0x2800).cfg.memWords ≤ (atLast 0x2800).pc.toNat + 1 := by decide
theorem witness_FaultPriorityOfAStep_execute :
    (encode (.movReg .r0 .r0)).head? = some ((atLast 0x6900).mem.readWord (atLast 0x6900).pc.toNat) ∧
    (atLast 0x6900).pc.toNat + (encode (.movReg .r0 .r0)).length ≤ (atLast 0x6900).cfg.memWords ∧
    (∀ e, (encode (.movReg .r0 .r0))[1]? = some e →
      (atLast 0x6900).mem.readWord ((atLast 0x6900).pc.toNat + 1) = e) :=
  ⟨by decide, by decide, fun e h => by cases h⟩
theorem witness_FaultPriorityOfAStep_cause : ∃ t, (start []).cause = none ∧
    exec (.divImm .r0 0) (start []) = .next t ∧ t.cause = some .divisionByZero := ⟨_, rfl, rfl, rfl⟩
theorem witness_RunStates : ∃ s h f t : State, s.cfg.wf = true ∧ s.Active ∧ step s = .next t ∧
    h.cfg.wf = true ∧ h.run = .halted ∧ f.cfg.wf = true ∧ f.run = .faulted :=
  ⟨pushing 0x0400, { start [] with run := .halted }, faultedWith .illegalOpcode (start []), _, by decide, .inl rfl, rfl,
    by decide, rfl, by decide, rfl⟩
theorem witness_PcWrapsButTrailingFetchDoesNot : (whole 0x6900).cfg.wf = true ∧ (whole 0x6900).Active ∧
    (whole 0x6900).cfg.memWords = 65536 ∧ (whole 0x6900).pc = 0xFFFF ∧
    (encode (.movReg .r0 .r0)).head? = some ((whole 0x6900).mem.readWord 0xFFFF) ∧
    (encode (.movImm .r0 7)).head? = some ((whole 0x6800).mem.readWord 0xFFFF) ∧
    (encode (.movImm .r0 7)).length = 2 :=
  ⟨by decide, .inl rfl, rfl, rfl, by decide, by decide, rfl⟩
/-- One-Word instructions at 0xFFFF that do not set `pc`: one that commits, one that faults, HALT, and a conditional
jump whose condition is false; with the condition true it does set `pc`. -/
theorem witness_PcWraps_forms :
    ((encode (.gsp .r4)).head? = some ((whole 0x9980).mem.readWord 0xFFFF) ∧ (encode (.gsp .r4)).length = 1 ∧
      ¬ SetsPc .gsp (whole 0x9980)) ∧
    ((encode (.divReg .r0 .r1)).head? = some ((whole 0x2904).mem.readWord 0xFFFF) ∧
      faultsWith (whole 0x2904) .divisionByZero) ∧
    ((encode .halt).head? = some ((whole 0x0900).mem.readWord 0xFFFF) ∧
      (nextOf (step (whole 0x0900))).map (·.pc) = some 0) ∧
    ((encode (.jzReg .r1)).head? = some ((whole 0xA904).mem.readWord 0xFFFF) ∧ ¬ SetsPc .jz (whole 0xA904) ∧
      stepsTo (whole 0xA904) { whole 0xA904 with pc := 0 } ∧
      SetsPc .jz { whole 0xA904 with flags := ⟨true, false, false, false⟩ }) :=
  ⟨⟨by decide, by decide, id⟩, ⟨by decide, by decide⟩, ⟨by decide, by decide⟩, by decide, Bool.false_ne_true, by decide,
    rfl⟩
/-- The invariant holds and the step stores: `PUSH R1`. -/
theorem witness_StepKeepsTheInvariant : ∃ t, (pushing 0x0400).Inv ∧ step (pushing 0x0400) = .next t ∧
    t.mem ≠ (pushing 0x0400).mem := ⟨_, by decide, rfl, by decide⟩
theorem witness_Reachable : Reachable State.reset := .built Config.ref [1, 0, 0] _ (by decide)
theorem witness_HostOperationsKeepTheInvariant : (pushing 0x0400).Inv ∧
    (∃ t, (pushing 0).cfg.wf = true ∧ loadImage (pushing 0) [1, 0, 1, 0x0900] = .ok t) ∧
    (∃ t, construct (whole 0).cfg [1, 0xFFFF, 1, 0x0900] = some t) :=
  ⟨by decide, ⟨_, by decide, rfl⟩, _, rfl⟩
/-- Two ways to one memory: never written, and written and then cleared. -/
theorem witness_InspectDeterminesTheState :
    let s := start [0x0900]
    let t := { s with mem := (s.mem.writeWord 0x03FF 1).writeWord 0x03FF 0 }
    s.Inv ∧ t.Inv ∧ s.cfg = t.cfg ∧ inspect s = inspect t ∧
      ∀ a, a < s.cfg.memWords → inspectWord s a = inspectWord t a :=
  ⟨by decide, by decide, rfl, rfl, fun a _ => congrArg
    (fun m => inspectWord { start [0x0900] with mem := m } a)
    (show (start [0x0900]).mem = ((start [0x0900]).mem.writeWord 0x03FF 1).writeWord 0x03FF 0 by decide)⟩
theorem witness_LoadPlacesTheImage :
    (([1, 0x03FF, 0] : List Word) = 1 :: 0x03FF :: 0 :: [] ∧ (1 : Word) = State.reset.cfg.formatVersion ∧
      ([] : List Word).length = (0 : Word).toNat ∧ State.reset.cfg.wf = true) ∧
    ¬ State.reset.cfg.memWords ≤ (0x03FF : Word).toNat ∧ State.reset.cfg.memWords ≤ (0x0400 : Word).toNat ∧
    loadImage State.reset [2, 0, 0] = .imageFormatError := by decide

end Sys2Proof.Tests
end

/-! SUPPORT and PROOFS, family 00_scope: every instruction commits or faults, and every step keeps the invariant. -/

namespace Sys2Proof.Laws

open Sys2Proof.Machine

/-! ### What one instruction and one step do to the control fields -/

/-- HALT is the only form of its opcode, so any other opcode rules it out. -/
theorem ne_halt_of_op_mem {i : Instr} {ops : List Op} (h : i.record.op ∈ ops) (hops : Op.halt ∉ ops) : i ≠ .halt := by
  rintro rfl
  exact hops h

/-- HALT aside, an instruction that commits keeps the Config, `entry` and `cause` and at most leaves Ready (R20, R141);
a fault is one of R150. -/
theorem effect_control {i : Instr} {s t : State} (h : Effect i s t) :
    (i ≠ .halt ∧ KeepsControl s t) ∨ (i = .halt ∧ t = { s with pc := nextPc 1 s, run := .halted }) ∨
      ∃ f, t = faultedWith f s := by
  cases h with
  | halt hi => exact .inr (.inl ⟨hi, rfl⟩)
  | fault f _ => exact .inr (.inr ⟨f, rfl⟩)
  | alu _ hop | reg _ hop | push _ _ _ hop _ | jump _ hop _ =>
    exact .inl ⟨ne_halt_of_op_mem hop (by decide), rfl, rfl, rfl, rfl⟩
  | cmp _ hop | store _ _ _ hop _ | pop _ _ hop | ret _ _ hop | ssp _ hop =>
    exact .inl ⟨ne_halt_of_op_mem (List.mem_singleton.2 hop) (by decide), rfl, rfl, rfl, rfl⟩

/-- All that a step of a legal `Config` can do: it is rejected (R142), its decode faults, or it runs an instruction. -/
theorem step_cases {s t : State} (hc : s.cfg.wf = true) (h : step s = .next t) :
    ((s.run = .halted ∨ s.run = .faulted) ∧ t = s) ∨
      (∃ e, s.Active ∧ decodeAtPc s = .err e ∧ t = faultedWith (faultOfDecode e) s) ∨
      ∃ i n, s.Active ∧ decodeAtPc s = .ok i n ∧ Effect i s t := by
  rcases active_or_terminal s with ha | hterm
  · rw [step_of_active hc ha] at h
    rcases fetchExecute_cases s with ⟨e, hdec, hnext⟩ | ⟨i, n, u, hdec, hnext, -, heff⟩
    · rw [hnext] at h
      cases h
      exact .inr (.inl ⟨e, ha, hdec, rfl⟩)
    · rw [hnext] at h
      cases h
      exact .inr (.inr ⟨i, n, ha, hdec, heff⟩)
  · rw [step_of_terminal hc hterm] at h
    cases h
    exact .inl ⟨hterm, rfl⟩

/-! ### Keeping the invariant -/

/-- Fault entry latches a cause as it enters Faulted, so it keeps the invariant from any run state (R21, R150). -/
theorem inv_faultedWith {s : State} (hs : s.Inv) (f : FaultCause) : (faultedWith f s).Inv := by
  obtain ⟨hcfg, hwf, hbelow, -⟩ := hs
  exact ⟨hcfg, hwf, hbelow, by simp [faultedWith]⟩

/-- A core that may step has no latched cause (R21). -/
theorem cause_of_active {s : State} (hs : s.Inv) (ha : s.Active) : s.cause = none := by
  obtain ⟨-, -, -, hcause⟩ := hs
  rcases ha with hrun | hrun <;> simpa [hrun] using hcause

/-- Memory stays canonical and within `M`: a store is to a checked address, and a slot of a legal Config is a valid
address (R34, R111). -/
theorem effect_keeps_memory_wf {i : Instr} {s t : State} (h : Effect i s t) (hs : s.Inv) :
    t.mem.wf = true ∧ Memory.below (2 * s.cfg.memWords) t.mem = true := by
  obtain ⟨hcfg, hwf, hbelow, -⟩ := hs
  cases h with
  | store v ea hea _ _ => exact ⟨Memory.wf_writeWord hwf, Memory.below_writeWord hbelow hea⟩
  | push v target hslot _ _ =>
    have hvalid : s.sp.toNat - 1 < s.cfg.memWords := by
      have := slot_valid hcfg hslot
      omega
    exact ⟨Memory.wf_writeWord hwf, Memory.below_writeWord hbelow hvalid⟩
  | alu | cmp | reg | pop | ret | ssp | jump | halt | fault => exact ⟨hwf, hbelow⟩

/-- An instruction run by a core that may step keeps the invariant. (From Faulted, HALT would not: it would leave the
cause latched in Halted.) -/
theorem effect_keeps_inv {i : Instr} {s t : State} (h : Effect i s t) (hs : s.Inv) (ha : s.Active) : t.Inv := by
  have hlegal : s.cfg.wf = true := hs.1
  obtain ⟨hwf, hbelow⟩ := effect_keeps_memory_wf h hs
  have hnone := cause_of_active hs ha
  rcases effect_control h with ⟨-, hcfg, -, hcause, hrun⟩ | ⟨-, rfl⟩ | ⟨f, rfl⟩
  · rw [started_of_active ha] at hrun
    exact ⟨hcfg ▸ hlegal, hwf, hcfg ▸ hbelow, by simp [hcause, hnone, hrun]⟩
  · exact ⟨hlegal, hwf, hbelow, by simp [hnone]⟩
  · exact inv_faultedWith hs f

/-- No instruction changes the Config or `entry` (R22, R23). -/
theorem effect_keeps_cfg_entry {i : Instr} {s t : State} (h : Effect i s t) : t.cfg = s.cfg ∧ t.entry = s.entry := by
  rcases effect_control h with ⟨-, hcfg, hentry, -, -⟩ | ⟨-, rfl⟩ | ⟨f, rfl⟩
  exacts [⟨hcfg, hentry⟩, ⟨rfl, rfl⟩, ⟨rfl, rfl⟩]

end Sys2Proof.Laws

namespace Sys2Proof.Proofs

open Sys2Proof.Machine Sys2Proof.Laws

/-- Settles O50: by what a step can do, an instruction's effect being the case with content. -/
theorem stepKeepsTheInvariant : Obligations.StepKeepsTheInvariant := by
  intro s t hs hstep
  rcases step_cases hs.1 hstep with ⟨-, rfl⟩ | ⟨e, -, -, rfl⟩ | ⟨i, n, ha, -, heff⟩
  · exact ⟨hs, rfl, rfl⟩
  · exact ⟨inv_faultedWith hs _, rfl, rfl⟩
  · exact ⟨effect_keeps_inv heff hs ha, effect_keeps_cfg_entry heff⟩

/-- Settles O41: the three outcomes of `effect_control` are the commit, HALT's commit and the fault entry. -/
theorem everyInstructionCompletesOrFaults : Obligations.EveryInstructionCompletesOrFaults := by
  intro i s
  obtain ⟨t, hexec, heff⟩ := exec_effect i s
  refine ⟨t, hexec, ?_⟩
  rcases effect_control heff with ⟨hi, hcfg, hentry, hcause, hrun⟩ | ⟨hi, rfl⟩ | hfault
  · exact .inl ⟨hcause, hentry, hcfg, by rw [if_neg hi, hrun]⟩
  · exact .inl ⟨rfl, rfl, rfl, by rw [if_pos hi]⟩
  · exact .inr hfault

end Sys2Proof.Proofs

/-! SUPPORT and PROOFS, family 10_state: which instruction changes which field, the run states, the top of memory, and
what the host's operations keep. -/

namespace Sys2Proof.Laws

open Sys2Proof.Machine

/-! ### What one instruction changes, field by field -/

/-- An opcode of one family is none of a disjoint family. -/
theorem op_notMem_of_mem {o : Op} {ops others : List Op} (h : o ∈ ops) (hdisjoint : ∀ p ∈ ops, p ∉ others) :
    o ∉ others :=
  hdisjoint o h

/-- The flags: only the arithmetic and logic instructions write them (R16). -/
theorem effect_flags {i : Instr} {s t : State} (h : Effect i s t) :
    t.flags = s.flags ∨ i.record.op ∈ [.add, .sub, .mul, .div, .mod, .and, .or, .xor, .shl, .shr, .cmp] := by
  cases h with
  | alu r hop => exact .inr (List.subset_def.1 (by decide) hop)
  | cmp f hop => exact .inr (by simp [hop])
  | reg | store | push | pop | ret | ssp | jump | halt | fault => exact .inl rfl

/-- `sp`: kept, moved by one around a slot of the declared region, or set by SSP (R14). -/
theorem effect_sp {i : Instr} {s t : State} (h : Effect i s t) :
    t.sp = s.sp ∨
      (i.record.op ∈ [.push, .call] ∧ isSlot s.cfg ((s.sp.toNat : Int) - 1) = true ∧
        t.sp = trunc16 ((s.sp.toNat : Int) - 1)) ∨
      (i.record.op ∈ [.pop, .ret] ∧ isSlot s.cfg s.sp.toNat = true ∧ t.sp = trunc16 (s.sp.toNat + 1)) ∨
      i.record.op = .ssp := by
  cases h with
  | push v target hslot hop _ => exact .inr (.inl ⟨hop, hslot, rfl⟩)
  | pop v hslot hop => exact .inr (.inr (.inl ⟨by simp [hop], hslot, rfl⟩))
  | ret target hslot hop => exact .inr (.inr (.inl ⟨by simp [hop], hslot, rfl⟩))
  | ssp v hop => exact .inr (.inr (.inr hop))
  | alu | cmp | reg | store | jump | halt | fault => exact .inl rfl

/-- Memory: kept, or one Word written, by ST at its effective address or by PUSH and CALL at `sp - 1` (R19, R36). -/
theorem effect_mem {i : Instr} {s t : State} (h : Effect i s t) :
    t.mem = s.mem ∨
      (i.record.op = .st ∧ ∃ ea v, StoreForm s i ea v ∧ t.mem = s.mem.writeWord ea v) ∨
      (i.record.op ∈ [.push, .call] ∧ ∃ v, t.mem = s.mem.writeWord (s.sp.toNat - 1) v) := by
  cases h with
  | store v ea _ hop hform => exact .inr (.inl ⟨hop, ea, v, hform, rfl⟩)
  | push v target _ hop _ => exact .inr (.inr ⟨hop, v, rfl⟩)
  | alu | cmp | reg | pop | ret | ssp | jump | halt | fault => exact .inl rfl

/-- The general registers: kept, or the one of the `rd` field written (R11). -/
theorem effect_regs {i : Instr} {s t : State} (h : Effect i s t) :
    t.regs = s.regs ∨
      (i.record.op ∈ [.add, .sub, .mul, .div, .mod, .and, .or, .xor, .shl, .shr, .mov, .ld, .pop, .gsp] ∧
        ∃ v, t.regs = s.regs.set i.record.rd v) := by
  cases h with
  | alu r hop => exact .inr ⟨List.subset_def.1 (by decide) hop, r.value, rfl⟩
  | reg v hop => exact .inr ⟨List.subset_def.1 (by decide) hop, v, rfl⟩
  | pop v _ hop => exact .inr ⟨by simp [hop], v, rfl⟩
  | cmp | store | push | ret | ssp | jump | halt | fault => exact .inl rfl

/-- `pc`: an instruction that does not set it advances past itself as it commits, or faults (R13, R151). -/
theorem effect_pc {i : Instr} {s t : State} (h : Effect i s t) (hpc : ¬ SetsPc i.record.op s) :
    (t.pc = nextPc i.len s ∧ t.cause = s.cause ∧ t.run = if i = .halt then .halted else s.run.started) ∨
      (i.record.op ∈ [.div, .mod, .ld, .st, .push, .pop] ∧ ∃ f, t = faultedWith f s) := by
  have hcall : i.record.op ≠ .call := fun e => hpc (by simp [e, SetsPc])
  have hret : i.record.op ≠ .ret := fun e => hpc (by simp [e, SetsPc])
  cases h with
  | halt hi => exact .inl (by subst hi; exact ⟨rfl, rfl, rfl⟩)
  | fault f hop => exact .inr ⟨by simp [hcall, hret] at hop ⊢; tauto, f, rfl⟩
  | alu _ hop | reg _ hop => exact .inl ⟨rfl, rfl, (if_neg (ne_halt_of_op_mem hop (by decide))).symm⟩
  | push _ _ _ hop htarget =>
    exact .inl ⟨htarget (by simpa [hcall] using hop), rfl, (if_neg (ne_halt_of_op_mem hop (by decide))).symm⟩
  | jump _ hop htarget => exact .inl ⟨htarget hpc, rfl, (if_neg (ne_halt_of_op_mem hop (by decide))).symm⟩
  | ret _ _ hop => exact absurd hop hret
  | cmp _ hop | store _ _ _ hop _ | pop _ _ hop | ssp _ hop =>
    exact .inl ⟨rfl, rfl, (if_neg (ne_halt_of_op_mem (List.mem_singleton.2 hop) (by decide))).symm⟩

/-- Of the instructions that an active core runs, HALT alone ends in Halted (R20, R132). -/
theorem effect_run_halted_iff {i : Instr} {s t : State} (h : Effect i s t) (ha : s.Active) :
    t.run = .halted ↔ i = .halt := by
  cases h with
  | halt hi => simp [hi]
  | fault f hop =>
    have hi : i ≠ .halt := by
      rintro rfl
      simp [Instr.record] at hop
    simp [faultedWith, hi]
  | alu _ hop | reg _ hop | push _ _ _ hop _ | jump _ hop _ =>
    simp [started_of_active ha, ne_halt_of_op_mem hop]
  | cmp _ hop | store _ _ _ hop _ | pop _ _ hop | ret _ _ hop | ssp _ hop =>
    simp [started_of_active ha, ne_halt_of_op_mem (List.mem_singleton.2 hop)]

/-- The effective address of a ST is a function of the instruction and the state (R100). -/
theorem storeForm_ea_unique {s : State} {i : Instr} {a b : Nat} {v w : Word} (h : StoreForm s i a v)
    (h' : StoreForm s i b w) : a = b := by
  cases h <;> cases h' <;> rfl

/-- One Word written leaves every byte of the others (R34). -/
theorem keepsMemoryBut_of_writeWord {s t : State} {a : Nat} {v : Word} (hs : s.mem.wf = true)
    (h : t.mem = s.mem.writeWord a v) : KeepsMemoryBut a s t := fun b hb => by
  rw [h, Memory.readByte_writeWord_other hs hb]

theorem keepsMemoryBut_of_mem_eq {s t : State} (a : Nat) (h : t.mem = s.mem) : KeepsMemoryBut a s t := fun b _ => by
  rw [h]

/-- A ST in any mode changes at most the Word at its effective address (R103). -/
theorem storeForm_keepsMemoryBut {s t : State} {i : Instr} {ea : Nat} {v : Word} (hs : s.mem.wf = true)
    (hform : StoreForm s i ea v) (h : exec i s = .next t) : KeepsMemoryBut ea s t := by
  rcases effect_mem (effect_of_exec h) with hmem | ⟨-, b, w, hform', hmem⟩ | ⟨hop, -⟩
  · exact keepsMemoryBut_of_mem_eq ea hmem
  · rw [storeForm_ea_unique hform hform']
    exact keepsMemoryBut_of_writeWord hs hmem
  · cases hform <;> simp [Instr.record] at hop

/-! ### Running an instruction with other flags -/

/-- Both outcomes are next states, which differ in their flags at most. -/
def SameButFlags (o o' : Outcome) : Prop := ∃ t u, o = .next t ∧ o' = .next u ∧ u.setFlags t.flags = t

section SetFlags

variable (s : State) (f : Flags)

theorem memWrite_setFlags (a : Nat) (v : Word) :
    memWrite (s.setFlags f) a v = (memWrite s a v).map (·.setFlags f) := by
  rcases lt_or_ge a s.cfg.memWords with h | h
  · rw [memWrite_of_lt h, memWrite_of_lt (s := s.setFlags f) h]; rfl
  · rw [memWrite_of_le h, memWrite_of_le (s := s.setFlags f) h]; rfl

theorem push_setFlags (v : Word) : push v (s.setFlags f) = (push v s).map (·.setFlags f) := by
  cases h : isSlot s.cfg ((s.sp.toNat : Int) - 1)
  · rw [push_of_not_slot h, push_of_not_slot (s := s.setFlags f) h]; rfl
  · rw [push_of_slot h, push_of_slot (s := s.setFlags f) h]; rfl

theorem pop_setFlags : pop (s.setFlags f) = (pop s).map fun vt => (vt.1, vt.2.setFlags f) := by
  cases h : isSlot s.cfg s.sp.toNat
  · rw [pop_of_not_slot h, pop_of_not_slot (s := s.setFlags f) h]; rfl
  · rw [pop_of_slot h, pop_of_slot (s := s.setFlags f) h]; rfl

/-- If what is attempted is the same but for the flags, so is its commit; and so is a fault entry. -/
theorem finish_sameButFlags {α β : Type} (r : Except FaultCause α) (k : α → β) (g : α → State) (g' : β → State)
    (h : ∀ a, (g' (k a)).setFlags (g a).flags = g a) :
    SameButFlags (finish s (r.map g)) (finish (s.setFlags f) ((r.map k).map g')) := by
  cases r with
  | error e => exact ⟨_, _, rfl, rfl, rfl⟩
  | ok a =>
    refine ⟨_, _, rfl, rfl, ?_⟩
    rw [← h a]
    rfl

theorem aluTry_sameButFlags (rd : Reg) (len : Nat) (r : Except FaultCause AluResult) :
    SameButFlags (aluTry rd len r s) (aluTry rd len r (s.setFlags f)) := by
  cases r <;> exact ⟨_, _, rfl, rfl, rfl⟩

theorem loadReg_sameButFlags (rd : Reg) (len ea : Nat) :
    SameButFlags (loadReg rd len ea s) (loadReg rd len ea (s.setFlags f)) := by
  rcases lt_or_ge ea s.cfg.memWords with h | h
  · exact ⟨_, _, loadReg_of_lt h, loadReg_of_lt (s := s.setFlags f) h, rfl⟩
  · exact ⟨_, _, loadReg_of_le h, loadReg_of_le (s := s.setFlags f) h, rfl⟩

theorem storeReg_sameButFlags (rs : Reg) (len ea : Nat) :
    SameButFlags (storeReg rs len ea s) (storeReg rs len ea (s.setFlags f)) := by
  rcases lt_or_ge ea s.cfg.memWords with h | h
  · exact ⟨_, _, storeReg_of_lt h, storeReg_of_lt (s := s.setFlags f) h, rfl⟩
  · exact ⟨_, _, storeReg_of_le h, storeReg_of_le (s := s.setFlags f) h, rfl⟩

/-- An instruction that pushes reads no flag, if what it does to the pushed state reads none. -/
theorem finish_push_sameButFlags (v : Word) (g : State → State)
    (h : ∀ u, (g (u.setFlags f)).setFlags (g u).flags = g u) :
    SameButFlags (finish s ((push v s).map g)) (finish (s.setFlags f) ((push v (s.setFlags f)).map g)) := by
  rw [push_setFlags]
  exact finish_sameButFlags s f _ _ g g h

/-- An instruction that pops reads no flag, if what it does to the popped state reads none. -/
theorem finish_pop_sameButFlags (g : Word × State → State)
    (h : ∀ v u, (g (v, u.setFlags f)).setFlags (g (v, u)).flags = g (v, u)) :
    SameButFlags (finish s ((pop s).map g)) (finish (s.setFlags f) ((pop (s.setFlags f)).map g)) := by
  rw [pop_setFlags]
  exact finish_sameButFlags s f _ _ g g fun vt => h vt.1 vt.2

/-- Only the conditional jumps read a flag (R16, R17). -/
theorem exec_sameButFlags (i : Instr) (h : i.record.op ∉ [.jz, .jnz, .jc, .jnc, .js, .jns, .jo, .jno]) :
    SameButFlags (exec i s) (exec i (s.setFlags f)) := by
  cases i
  case divImm | divReg | modImm | modReg => exact aluTry_sameButFlags s f _ _ _
  case ldInd | ldDir | ldSp => exact loadReg_sameButFlags s f _ _ _
  case stInd | stDir | stSp => exact storeReg_sameButFlags s f _ _ _
  case pushImm | pushReg | callImm | callReg => exact finish_push_sameButFlags s f _ _ fun _ => rfl
  case pop | ret => exact finish_pop_sameButFlags s f _ fun _ _ => rfl
  case jzImm | jzReg | jnzImm | jnzReg | jcImm | jcReg | jncImm | jncReg |
      jsImm | jsReg | jnsImm | jnsReg | joImm | joReg |
      jnoImm | jnoReg =>
    simp [Instr.record] at h
  all_goals exact ⟨_, _, rfl, rfl, rfl⟩

end SetFlags

/-! ### Decoding the Words of an instruction -/

/-- A form has a trailing Word exactly when its mode says so (R54). -/
theorem hasExt_record (i : Instr) : i.record.mode.hasExt = i.record.ext.isSome := by cases i <;> rfl

theorem encode_length_eq_len (i : Instr) : (encode i).length = i.len := by
  rw [encode_eq, Instr.len, hasExt_record]
  cases i.record.ext <;> rfl

/-- The first Word of an instruction gives back the fields of its record (R51). -/
theorem fields_of_head {i : Instr} {w : Word} (h : (encode i).head? = some w) :
    Reg.ofField (rdField w) = i.record.rd ∧ Reg.ofField (rsField w) = i.record.rs := by
  rw [encode_eq] at h
  cases h
  simp

/-- A sequence that holds the Words of an instruction decodes to it (R63). -/
theorem decodeWith_of_words {fetch : Nat → Option Word} {off : Nat} {i : Instr} {w : Word}
    (hw : fetch off = some w) (hhead : (encode i).head? = some w)
    (hext : i.record.ext.isSome = true → fetch (off + 1) = i.record.ext) :
    decodeWith fetch off = .ok i i.len := by
  obtain ⟨hrd, hrs⟩ := fields_of_head hhead
  have hrecord : decodeRecord fetch off = .ok i.record i.len := by
    have hmode := hasExt_record i
    simp only [decodeRecord, hw, checkFirst_of_head hhead, hrd, hrs, Instr.len, hmode]
    generalize i.record = x at hext ⊢
    obtain ⟨op, mode, rd, rs, _ | e⟩ := x
    · rfl
    · simp [hext rfl]
  simp [decodeWith, hrecord, form_record]

/-- The first Word of a two-Word instruction with no Word after it is out of range (R66). -/
theorem decodeWith_of_missing_ext {fetch : Nat → Option Word} {off : Nat} {i : Instr} {w : Word}
    (hw : fetch off = some w) (hhead : (encode i).head? = some w) (hext : i.record.ext.isSome = true)
    (hmissing : fetch (off + 1) = none) : decodeWith fetch off = .err .outOfRange := by
  simp [decodeWith, decodeRecord, hw, checkFirst_of_head hhead, hasExt_record, hext, hmissing]

/-- The step of a core that may step is the meaning of the instruction decoded at `pc` (R140). -/
theorem step_of_decode {s : State} {i : Instr} {n : Nat} (hc : s.cfg.wf = true) (ha : s.Active)
    (h : decodeAtPc s = .ok i n) : step s = exec i s := by
  rw [step_of_active hc ha, fetchExecute, h]

/-- The step of a core that may step takes the fault of a failed decode (R140). -/
theorem step_of_decode_err {s : State} {e : CodecError} (hc : s.cfg.wf = true) (ha : s.Active)
    (h : decodeAtPc s = .err e) : step s = .next (faultedWith (faultOfDecode e) s) := by
  rw [step_of_active hc ha, fetchExecute, h]
  rfl

/-- A one-Word instruction at a valid `pc` is run, wherever memory ends after it (R54, R146). -/
theorem step_of_oneWord {s : State} {i : Instr} (hc : s.cfg.wf = true) (ha : s.Active)
    (hpc : s.pc.toNat < s.cfg.memWords) (hhead : (encode i).head? = some (s.mem.readWord s.pc.toNat))
    (hlen : (encode i).length = 1) : step s = exec i s := by
  refine step_of_decode hc ha (decodeWith_of_words (fetchWord_of_lt hpc) hhead fun hext => ?_)
  rw [encode_length_eq_len, Instr.len, hasExt_record, if_pos hext] at hlen
  cases hlen

/-- A two-Word instruction whose trailing Word is outside memory faults (R66, R146). -/
theorem step_of_trailing_outside {s : State} {i : Instr} (hc : s.cfg.wf = true) (ha : s.Active)
    (hpc : s.pc.toNat < s.cfg.memWords) (hhead : (encode i).head? = some (s.mem.readWord s.pc.toNat))
    (hlen : (encode i).length = 2) (hend : s.cfg.memWords ≤ s.pc.toNat + 1) :
    step s = .next (faultedWith .memoryOutOfBounds s) := by
  refine step_of_decode_err hc ha
    (decodeWith_of_missing_ext (fetchWord_of_lt hpc) hhead ?_ (fetchWord_of_le hend))
  rw [encode_length_eq_len, Instr.len, hasExt_record] at hlen
  by_contra hext
  rw [if_neg hext] at hlen
  cases hlen

/-! ### What the host's operations do -/

/-- All that a successful Load can do (R173). -/
theorem loadImage_ok {s t : State} {image : List Word} (h : loadImage s image = .ok t) :
    ∃ version entryPoint count code, image = version :: entryPoint :: count :: code ∧ version = s.cfg.formatVersion ∧
      code.length = count.toNat ∧ count.toNat ≤ s.cfg.memWords ∧
      t = resetCore { s with mem := Memory.ofWords 0 code, entry := entryPoint } := by
  unfold loadImage at h
  split at h
  · rename_i version entryPoint count code
    split_ifs at h with hversion hlength hcount
    cases h
    exact ⟨version, entryPoint, count, code, rfl, not_not.1 hversion, not_not.1 hlength, not_lt.1 hcount, rfl⟩
  · cases h

/-- A core is constructed from a legal `Config` by a successful Load (R170). -/
theorem construct_some {c : Config} {image : List Word} {t : State} (h : construct c image = some t) :
    c.wf = true ∧ loadImage { State.reset with cfg := c } image = .ok t := by
  unfold construct at h
  split_ifs at h with hc
  split at h
  · rename_i u hload
    cases h
    exact ⟨hc, hload⟩
  · cases h

@[simp] theorem resetCore_cfg (s : State) : (resetCore s).cfg = s.cfg := rfl
@[simp] theorem resetCore_run (s : State) : (resetCore s).run = .ready := rfl
@[simp] theorem resetCore_cause (s : State) : (resetCore s).cause = none := rfl

/-- Reset clears a latched cause as it leaves Faulted, and keeps memory (R171). -/
theorem inv_resetCore {s : State} (hs : s.Inv) : (resetCore s).Inv := by
  obtain ⟨hcfg, hwf, hbelow, -⟩ := hs
  exact ⟨hcfg, hwf, hbelow, by simp⟩

/-- A loaded image is canonical and within `M` by its checked count, whatever memory was before. -/
theorem inv_loadImage {s t : State} {image : List Word} (hc : s.cfg.wf = true) (h : loadImage s image = .ok t) :
    t.Inv ∧ t.cfg = s.cfg := by
  obtain ⟨_, _, count, code, -, -, hlength, hcount, rfl⟩ := loadImage_ok h
  exact ⟨⟨hc, Memory.wf_ofWords 0 code, Memory.below_ofWords 0 code (by simpa [hlength] using hcount), by simp⟩, rfl⟩

theorem inv_construct {c : Config} {image : List Word} {t : State} (h : construct c image = some t) :
    t.Inv ∧ t.cfg = c := by
  obtain ⟨hc, hload⟩ := construct_some h
  exact inv_loadImage hc hload

/-! ### What Inspect shows of memory -/

/-- The low byte of a Word is the cell with the even key (log entry 3). -/
theorem readByte_even (m : Memory) (a : Nat) : m.readByte (2 * a) = (m.readWord a).extractLsb' 0 8 := by
  rw [Memory.readWord, BitVec.extractLsb'_append_eq_right]

/-- The high byte of a Word is the cell with the odd key (log entry 3). -/
theorem readByte_odd (m : Memory) (a : Nat) : m.readByte (2 * a + 1) = (m.readWord a).extractLsb' 8 8 := by
  rw [Memory.readWord, BitVec.extractLsb'_append_eq_left]

/-- Words that read alike are bytes that read alike. -/
theorem readByte_eq_of_readWord_eq {m n : Memory} {b : Nat} (h : m.readWord (b / 2) = n.readWord (b / 2)) :
    m.readByte b = n.readByte b := by
  rcases Nat.mod_two_eq_zero_or_one b with hb | hb
  · rw [show b = 2 * (b / 2) by omega, readByte_even, readByte_even, h]
  · rw [show b = 2 * (b / 2) + 1 by omega, readByte_odd, readByte_odd, h]

/-- A byte outside memory is unlisted. -/
theorem readByte_of_below {bound b : Nat} {m : Memory} (hm : Memory.below bound m = true) (h : bound ≤ b) :
    m.readByte b = unlistedByte := by
  induction m with
  | nil => rfl
  | cons c m ih =>
    obtain ⟨k, x⟩ := c
    obtain ⟨hk, hm'⟩ := Memory.below_cons.1 hm
    rw [Memory.readByte, if_neg (by omega), ih hm']

/-- Canonical memories of one size whose valid Words read alike are equal. -/
theorem mem_eq_of_readWord {m n : Memory} {size : Nat} (hm : m.wf = true) (hn : n.wf = true)
    (hmb : Memory.below (2 * size) m = true) (hnb : Memory.below (2 * size) n = true)
    (h : ∀ a, a < size → m.readWord a = n.readWord a) : m = n := by
  refine Memory.eq_of_readByte hm hn fun b => ?_
  rcases lt_or_ge b (2 * size) with hb | hb
  · exact readByte_eq_of_readWord_eq (h _ (by omega))
  · rw [readByte_of_below hmb hb, readByte_of_below hnb hb]

/-- `Inspect` of the fields beside memory shows every one of them but the Config (R18, R161). -/
theorem eq_of_inspect {s t : State} (hcfg : s.cfg = t.cfg) (h : inspect s = inspect t) (hmem : s.mem = t.mem) :
    s = t := by
  simp only [inspect, Inspection.mk.injEq] at h
  cases s
  cases t
  simp_all

end Sys2Proof.Laws

namespace Sys2Proof.Proofs

open Sys2Proof.Machine Sys2Proof.Laws

/-- Settles O37: the writes by `effect_flags`, the reads by running each form with both flag values. -/
theorem flagsBelongToArithmeticAndLogic : Obligations.FlagsBelongToArithmeticAndLogic := by
  refine ⟨fun i s t hop h => (effect_flags (effect_of_exec h)).resolve_right hop, fun i s t f hop h => ?_⟩
  obtain ⟨t', u, ht, hu, hsame⟩ := exec_sameButFlags s f i hop
  rw [h] at ht
  cases ht
  exact ⟨u, hu, hsame⟩

/-- Settles O38: by what can become of `sp`; a slot is what shuts out the wrap at either end. -/
theorem spBelongsToTheStackFamily : Obligations.SpBelongsToTheStackFamily := by
  refine ⟨fun i s t hop h => ?_, fun i s t _ hop h => ?_, fun i s t hc hop h => ?_⟩
  · rcases effect_sp (effect_of_exec h) with hsp | ⟨hpush, -⟩ | ⟨hpop, -⟩ | hssp
    · exact hsp
    · exact absurd (List.subset_def.1 (by decide) hpush) hop
    · exact absurd (List.subset_def.1 (by decide) hpop) hop
    · simp [hssp] at hop
  · rcases effect_sp (effect_of_exec h) with hsp | ⟨-, hslot, hsp⟩ | ⟨hpop, -⟩ | hssp
    · exact .inl hsp
    · have := pushed_sp hslot
      exact .inr (by rw [hsp]; omega)
    · exact absurd hpop (op_notMem_of_mem hop (by decide))
    · simp [hssp] at hop
  · rcases effect_sp (effect_of_exec h) with hsp | ⟨hpush, -⟩ | ⟨-, hslot, hsp⟩ | hssp
    · exact .inl hsp
    · exact absurd hpush (op_notMem_of_mem hop (by decide))
    · exact .inr (by rw [hsp, popped_sp hc hslot])
    · simp [hssp] at hop

/-- Settles O39: by what can become of memory. -/
theorem memoryChangesInAtMostOneWord : Obligations.MemoryChangesInAtMostOneWord := by
  refine ⟨fun i s t hop h => ?_, fun s t rd rs x hs => ⟨?_, ?_, ?_⟩, fun i s t hs hop h => ?_⟩
  · rcases effect_mem (effect_of_exec h) with hmem | ⟨hst, -⟩ | ⟨hstack, -⟩
    · exact hmem
    · exact absurd (by simp [hst]) hop
    · exact absurd (List.mem_cons_of_mem _ hstack) hop
  · exact storeForm_keepsMemoryBut hs (.ind rd rs)
  · exact storeForm_keepsMemoryBut hs (.dir x rs)
  · exact storeForm_keepsMemoryBut hs (.sp x rs)
  · rcases effect_mem (effect_of_exec h) with hmem | ⟨hst, -⟩ | ⟨-, v, hmem⟩
    · exact keepsMemoryBut_of_mem_eq _ hmem
    · simp [hst] at hop
    · exact keepsMemoryBut_of_writeWord hs hmem

/-- Settles O40: by what can become of the register file. -/
theorem registersChangeOnlyAtRd : Obligations.RegistersChangeOnlyAtRd := by
  refine ⟨fun i s t h q hq => ?_, fun i s t hop h q => ?_⟩ <;>
    rcases effect_regs (effect_of_exec h) with hregs | ⟨hop', v, hregs⟩
  · rw [hregs]
  · rw [hregs, RegFile.get_set_other hq]
  · rw [hregs]
  · exact absurd hop' hop

/-- Settles O46: by what a step of an active core can do, and by the forms of Reset and Load. -/
theorem runStateTransitions : Obligations.RunStateTransitions := by
  refine ⟨fun s t hc ha h => ?_, fun s => step_of_terminal, fun s => rfl, fun s t image h => ?_⟩
  · rcases step_cases hc h with ⟨hterm, -⟩ | ⟨e, -, hdec, rfl⟩ | ⟨i, n, -, hdec, heff⟩
    · rcases ha with ha | ha <;> simp [ha] at hterm
    · exact ⟨by simp [faultedWith, hdec], .inr (.inr ⟨_, rfl⟩)⟩
    · refine ⟨by simp [effect_run_halted_iff heff ha, hdec], ?_⟩
      rcases effect_control heff with ⟨-, -, -, hcause, hrun⟩ | ⟨-, rfl⟩ | hfault
      · exact .inr (.inl ⟨by rw [hrun, started_of_active ha], hcause⟩)
      · exact .inl rfl
      · exact .inr (.inr hfault)
  · obtain ⟨_, _, _, _, -, -, -, -, rfl⟩ := loadImage_ok h
    rfl

/-- Settles O49: `nextPc` wraps 0xFFFF to 0, and 0x10000 is no valid address of the trailing Word. -/
theorem pcWrapsButTrailingFetchDoesNot : Obligations.PcWrapsButTrailingFetchDoesNot := by
  intro s hc ha hsize hpc
  have hpcNat : s.pc.toNat = 0xFFFF := by rw [hpc]; rfl
  have hwrap : nextPc 1 s = 0 := by rw [nextPc_eq_add, hpc]; rfl
  rw [← hpcNat]
  have hvalid : s.pc.toNat < s.cfg.memWords := by omega
  refine ⟨fun i hhead hlen hset => ?_, fun rd rs hhead => ?_, fun i hhead hlen => ?_⟩
  · obtain ⟨t, hexec, heff⟩ := exec_effect i s
    refine ⟨t, (step_of_oneWord hc ha hvalid hhead hlen).trans hexec, hexec, ?_⟩
    have := effect_pc heff hset
    rwa [← encode_length_eq_len, hlen, hwrap, started_of_active ha] at this
  · exact ⟨_, step_of_oneWord hc ha hvalid hhead rfl, hwrap, RegFile.get_set_same _ _ _, started_of_active ha⟩
  · exact step_of_trailing_outside hc ha hvalid hhead hlen (by omega)

/-- Settles O56: each host operation's own lemma; only Reset needs the invariant before it. -/
theorem hostOperationsKeepTheInvariant : Obligations.HostOperationsKeepTheInvariant :=
  ⟨fun _ => inv_resetCore, fun _ _ _ => inv_loadImage, fun _ _ _ => inv_construct⟩

/-- Settles O52, by induction on how the state is reached. -/
theorem reachableStatesSatisfyTheInvariant : Obligations.ReachableStatesSatisfyTheInvariant := by
  intro s hs
  induction hs with
  | built c image s h => exact (inv_construct h).1
  | stepped s t _ h ih => exact (stepKeepsTheInvariant s t ih h).1
  | reset s _ ih => exact inv_resetCore ih
  | loaded s t image _ h ih => exact (inv_loadImage ih.1 h).1

/-- Settles O57: the valid Words fix a canonical memory, and Inspect shows every other field. -/
theorem inspectDeterminesTheState : Obligations.InspectDeterminesTheState := by
  intro s t hs ht hcfg hinspect hwords
  obtain ⟨-, hswf, hsbelow, -⟩ := hs
  obtain ⟨-, htwf, htbelow, -⟩ := ht
  have hmem : s.mem = t.mem := by
    rw [← hcfg] at htbelow
    refine mem_eq_of_readWord hswf htwf hsbelow htbelow fun a ha => ?_
    simpa [inspectWord, ha, hcfg ▸ ha] using hwords a ha
  obtain rfl := eq_of_inspect hcfg hinspect hmem
  exact ⟨rfl, rfl, rfl⟩

end Sys2Proof.Proofs

/-! SUPPORT and PROOFS, family 20_memory: a Word written is what the next load and the next fetch of it read. -/

namespace Sys2Proof.Laws

open Sys2Proof.Machine

/-! ### MemRead and fetch see the Word that memory holds -/

theorem memRead_of_readWord {s : State} {a : Nat} {v : Word} (ha : a < s.cfg.memWords)
    (hword : s.mem.readWord a = v) : memRead s a = .ok v := by
  rw [memRead_of_lt ha, hword]

theorem fetchWord_of_readWord {s : State} {a : Nat} {v : Word} (ha : a < s.cfg.memWords)
    (hword : s.mem.readWord a = v) : fetchWord s a = some v := by
  rw [fetchWord_of_lt ha, hword]

/-- MemRead looks at nothing but the Config and the Word at its address (R33). -/
theorem memRead_congr {s t : State} {a : Nat} (hcfg : t.cfg = s.cfg) (hword : t.mem.readWord a = s.mem.readWord a) :
    memRead t a = memRead s a := by
  rw [memRead, memRead, hcfg, hword]

/-- A fetch looks at nothing but the Config and the Word at its address (R31, R140). -/
theorem fetchWord_congr {s t : State} {a : Nat} (hcfg : t.cfg = s.cfg)
    (hword : t.mem.readWord a = s.mem.readWord a) : fetchWord t a = fetchWord s a := by
  rw [fetchWord, fetchWord, hcfg, hword]

/-! ### Instructions that load or write a Word -/

/-- A LD in any mode from a valid address, with its frame (R102). -/
theorem loadForm_setsReg {s : State} {i : Instr} {ea len : Nat} {rd : Reg} (h : LoadForm s i ea rd len)
    (hea : ea < s.cfg.memWords) : SetsReg i s rd len (s.mem.readWord ea) :=
  ⟨_, exec_loadForm h hea, RegFile.get_set_same _ _ _, fun _ hq => RegFile.get_set_other hq, rfl, rfl,
    nextPc_eq_add len s, fun _ => rfl, rfl, rfl, rfl, rfl⟩

/-- The slot that a push uses is a valid address in a legal Config (R111). -/
theorem pushSlot_valid {s : State} (hc : s.cfg.wf = true) (h : PushSlot s) : s.sp.toNat - 1 < s.cfg.memWords := by
  have := slot_valid hc ((pushSlot_iff s).1 h)
  omega

/-- An instruction that writes memory writes at a valid address (R34, R111). -/
theorem writesWord_valid {s : State} {i : Instr} {a : Nat} {v : Word} (hc : s.cfg.wf = true)
    (h : WritesWord s i a v) : a < s.cfg.memWords := by
  cases h with
  | store _ hea => exact hea
  | pushImm _ hslot | pushReg _ hslot | callImm _ hslot | callReg _ hslot => exact pushSlot_valid hc hslot

end Sys2Proof.Laws

namespace Sys2Proof.Proofs

open Sys2Proof.Machine Sys2Proof.Laws

/-- Settles O21: by the Word laws of the cell list; the bounds check reads the Config, which MemWrite keeps. -/
theorem memReadAfterMemWrite : Obligations.MemReadAfterMemWrite := by
  intro s a v hs
  refine ⟨fun ha => ?_, fun ha => ⟨memWrite_of_le ha, memRead_of_le ha⟩⟩
  refine ⟨_, memWrite_of_lt ha, ?_, Memory.wf_writeWord hs, fun b hb => ?_⟩
  · exact memRead_of_readWord ha (Memory.readWord_writeWord_same hs)
  · exact memRead_congr rfl (Memory.readWord_writeWord_other hs hb)

/-- Settles O22: the load's own effect at the state that the store leaves, where the Word at `ea` is the one stored. -/
theorem storeThenLoadGivesTheWord : Obligations.StoreThenLoadGivesTheWord := by
  intro s t i j ea len v rd hs hstore hea hexec hload
  rw [exec_storeForm hstore hea] at hexec
  cases hexec
  have hset := loadForm_setsReg hload hea
  rwa [Memory.readWord_writeWord_same hs] at hset

/-- Settles O23: the step is `exec` of what was decoded before the write, so the write may be to the instruction
itself; what a fetch reads afterwards is by the Word laws of the cell list. -/
theorem storeIsSeenByTheNextFetch : Obligations.StoreIsSeenByTheNextFetch := by
  intro s i n a v hs ha hdecode hwrites
  obtain ⟨hcfg, hwf, -, -⟩ := hs
  have hvalid := writesWord_valid hcfg hwrites
  obtain ⟨sp, pc, hexec⟩ := exec_writesWord hwrites
  refine ⟨_, (step_of_decode hcfg ha hdecode).trans hexec, hexec, started_of_active ha, ?_, fun b hb => ?_⟩
  · exact fetchWord_of_readWord hvalid (Memory.readWord_writeWord_same hwf)
  · exact fetchWord_congr rfl (Memory.readWord_writeWord_other hwf hb)

end Sys2Proof.Proofs

/-! SUPPORT and PROOFS, family 30_encoding: the well-formed records are those of the forms; all that decode can
answer. -/

namespace Sys2Proof.Laws

/-! ### The well-formed records are the records of the forms -/

/-- The rows of R57 by shape: the mode, the two register fields and the trailing Word that R60 allows together. -/
inductive ShapeRow : Shape → Mode → Reg → Reg → Option Word → Prop
  | dsImm (rd : Reg) (e : Word) : ShapeRow .ds .imm rd .r0 (some e)
  | dsReg (rd rs : Reg) : ShapeRow .ds .reg rd rs none
  | ldInd (rd rs : Reg) : ShapeRow .ld .rind rd rs none
  | ldDir (rd : Reg) (e : Word) : ShapeRow .ld .mdir rd .r0 (some e)
  | ldSp (rd : Reg) (e : Word) : ShapeRow .ld .srel rd .r0 (some e)
  | stInd (rd rs : Reg) : ShapeRow .st .rind rd rs none
  | stDir (rs : Reg) (e : Word) : ShapeRow .st .mdir .r0 rs (some e)
  | stSp (rs : Reg) (e : Word) : ShapeRow .st .srel .r0 rs (some e)
  | sImm (e : Word) : ShapeRow .s .imm .r0 .r0 (some e)
  | sReg (rs : Reg) : ShapeRow .s .reg .r0 rs none
  | dReg (rd : Reg) : ShapeRow .d .reg rd .r0 none
  | nReg : ShapeRow .n .reg .r0 .r0 none

/-- Every record in a row of R57 is the record of a form: of one form for each opcode of the row's shape. -/
theorem exists_form_of_shapeRow {x : Instruction} (h : ShapeRow x.op.shape x.mode x.rd x.rs x.ext) :
    ∃ i : Instr, i.record = x := by
  have hform : x.form.map Instr.record = some x := by
    obtain ⟨op, mode, rd, rs, ext⟩ := x
    cases op <;> cases h <;> rfl
  obtain ⟨i, -, hi⟩ := Option.map_eq_some_iff.1 hform
  exact ⟨i, hi⟩

/-- `WF` admits only the rows of R57. -/
theorem shapeRow_of_wf {x : Instruction} (h : x.wf = true) : ShapeRow x.op.shape x.mode x.rd x.rs x.ext := by
  obtain ⟨op, mode, rd, rs, ext⟩ := x
  unfold Instruction.wf at h
  dsimp only at h ⊢
  generalize op.shape = shape at h ⊢
  cases shape <;> cases mode <;> cases ext <;> simp at h
  case ds.reg.none | ld.rind.none | st.rind.none => constructor
  case s.imm.some | n.reg.none => obtain ⟨rfl, rfl⟩ := h; constructor
  all_goals subst h; constructor

/-- The decoder's own table admits only the rows of R57. -/
theorem shapeRow_of_formRow {op : Op} {mode : Mode} {row : FormRow} {rd rs : Reg} {ext : Option Word}
    (hrow : formRow op mode = some row) (hrd : row.usesRd = false → rd = .r0) (hrs : row.usesRs = false → rs = .r0)
    (hext : ext.isSome = mode.hasExt) : ShapeRow op.shape mode rd rs ext := by
  cases op <;> cases mode <;> cases hrow
  all_goals
    cases ext <;> cases hext
    simp at hrd hrs
    subst_vars
    constructor

theorem wf_iff_exists_form (x : Instruction) : x.wf = true ↔ ∃ i : Instr, i.record = x :=
  ⟨fun h => exists_form_of_shapeRow (shapeRow_of_wf h), by rintro ⟨i, rfl⟩; exact record_wf i⟩

theorem record_injective : Function.Injective Instr.record := fun i j h => by
  have hform := form_record i
  rw [h, form_record] at hform
  exact (Option.some.inj hform).symm

theorem encodeRecord_record (i : Instr) : encodeRecord i.record = .ok (encode i) := by
  rw [encodeRecord, if_pos (record_wf i), encode]

/-! ### The first Word -/

theorem exists_head (i : Instr) : ∃ w, (encode i).head? = some w := by
  rw [encode_eq]
  exact ⟨_, rfl⟩

theorem modeField_of_head {i : Instr} {w : Word} (h : (encode i).head? = some w) :
    modeField w = i.record.mode.field := by
  rw [encode_eq] at h
  cases h
  simp

/-- The first Word of an instruction has a defined opcode (R64). -/
theorem op_of_head {i : Instr} {w : Word} (h : (encode i).head? = some w) :
    Op.ofField (opcodeField w) = some i.record.op :=
  (checkFirst_ok (checkFirst_of_head h)).1

/-- The first Words whose opcode field is 0 or 31 (R64). -/
theorem op_eq_none_iff (w : Word) :
    Op.ofField (opcodeField w) = none ↔ w.toNat ≤ 0x07FF ∨ 0xF800 ≤ w.toNat := by
  have := w.isLt
  rw [Op.ofField_eq_none_iff, ← BitVec.toNat_inj, ← BitVec.toNat_inj, opcodeField_toNat]
  change w.toNat / 2048 % 32 = 0 ∨ w.toNat / 2048 % 32 = 31 ↔ _
  omega

/-- The checks of a first Word reject a reserved opcode as such, and anything else as an operand (R63). -/
theorem checkFirst_error {w : Word} {e : CodecError} (h : checkFirst w = .error e) :
    (e = .illegalOpcode ∧ Op.ofField (opcodeField w) = none) ∨
      (e = .illegalOperand ∧ Op.ofField (opcodeField w) ≠ none) := by
  unfold checkFirst at h
  split at h
  · next hop => cases h; exact .inl ⟨rfl, hop⟩
  · next op hop =>
    refine .inr ⟨?_, by simp [hop]⟩
    (repeat' split at h) <;> cases h <;> rfl

/-- A first Word that passes the checks is that of a form, with any trailing Word where the mode has one (R58). -/
theorem exists_form_of_checkFirst {w : Word} {op : Op} {mode : Mode} (h : checkFirst w = .ok (op, mode))
    (ext : Option Word) (hext : ext.isSome = mode.hasExt) :
    ∃ i : Instr, (encode i).head? = some w ∧ i.record.ext = ext := by
  obtain ⟨hop, hmode, hzero, row, hrow, hrd, hrs⟩ := checkFirst_ok h
  obtain ⟨i, hi⟩ := exists_form_of_shapeRow
    (x := ⟨op, mode, Reg.ofField (rdField w), Reg.ofField (rsField w), ext⟩)
    (shapeRow_of_formRow hrow (fun e => by rw [hrd e]; rfl) (fun e => by rw [hrs e]; rfl) hext)
  refine ⟨i, ?_, by rw [hi]⟩
  rw [encode_eq, hi, List.head?_cons]
  simp only [Op.field_of_ofField hop, Mode.field_of_ofField _ _ hmode, Reg.field_ofField, firstWord_fields hzero]

/-! ### All that decode can answer -/

/-- The sequence holds these Words from `off` on. -/
def HoldsWords (fetch : Nat → Option Word) (off : Nat) (l : List Word) : Prop :=
  ∀ k, k < l.length → fetch (off + k) = l[k]?

/-- An instruction stands in a sequence by its first Word, and its trailing Word if it has one. -/
theorem holdsWords_encode_iff {fetch : Nat → Option Word} {off : Nat} {i : Instr} :
    HoldsWords fetch off (encode i) ↔
      fetch off = (encode i).head? ∧ (i.record.ext.isSome = true → fetch (off + 1) = i.record.ext) := by
  rw [HoldsWords, encode_eq]
  cases i.record.ext with
  | none => simp
  | some e => simp [Nat.le_one_iff_eq_zero_or_eq_one, or_imp, forall_and]

/-- In a list, the Words held from `off` on are a segment of it. -/
theorem eq_take_drop_of_holdsWords {ws l : List Word} {off : Nat} (h : HoldsWords (fun a => ws[a]?) off l) :
    l = (ws.drop off).take l.length := by
  refine List.ext_getElem? fun k => ?_
  rw [List.getElem?_take, List.getElem?_drop]
  split_ifs with hk
  · exact (h k hk).symm
  · exact List.getElem?_eq_none (not_lt.1 hk)

theorem decodeWith_of_holdsWords {fetch : Nat → Option Word} {off : Nat} {i : Instr}
    (h : HoldsWords fetch off (encode i)) : decodeWith fetch off = .ok i (encode i).length := by
  obtain ⟨hfirst, hext⟩ := holdsWords_encode_iff.1 h
  obtain ⟨w, hhead⟩ := exists_head i
  rw [encode_length_eq_len]
  exact decodeWith_of_words (hfirst.trans hhead) hhead hext

theorem length_encode_eq_two_iff (i : Instr) : (encode i).length = 2 ↔ i.record.ext.isSome = true := by
  rw [encode_eq]
  cases i.record.ext <;> simp

theorem decodeWith_of_missing {fetch : Nat → Option Word} {off : Nat} (h : fetch off = none) :
    decodeWith fetch off = .err .outOfRange := by
  rw [decodeWith, decodeRecord, h]

theorem decodeWith_of_checkFirst_error {fetch : Nat → Option Word} {off : Nat} {w : Word} {e : CodecError}
    (hw : fetch off = some w) (h : checkFirst w = .error e) : decodeWith fetch off = .err e := by
  simp only [decodeWith, decodeRecord, hw, h]

/-- All that decode can answer where the sequence has a first Word `w`, with what each answer says (R63 to R66). -/
inductive DecodeOutcome (fetch : Nat → Option Word) (off : Nat) (w : Word) : DecodeResult Instr → Prop
  | reserved (hop : Op.ofField (opcodeField w) = none) : DecodeOutcome fetch off w (.err .illegalOpcode)
  | noForm (hop : Op.ofField (opcodeField w) ≠ none) (hno : ∀ i : Instr, (encode i).head? ≠ some w) :
      DecodeOutcome fetch off w (.err .illegalOperand)
  | cutOff (i : Instr) (hhead : (encode i).head? = some w) (hlen : (encode i).length = 2)
      (hmissing : fetch (off + 1) = none) : DecodeOutcome fetch off w (.err .outOfRange)
  | ok (i : Instr) (hhead : (encode i).head? = some w) (hwords : HoldsWords fetch off (encode i)) :
      DecodeOutcome fetch off w (.ok i (encode i).length)

/-- By the checks of the first Word; after them only the presence of the trailing Word is left open. -/
theorem decodeWith_outcome {fetch : Nat → Option Word} {off : Nat} {w : Word} (hw : fetch off = some w) :
    DecodeOutcome fetch off w (decodeWith fetch off) := by
  have decoded {i : Instr} (hhead : (encode i).head? = some w)
      (hext : i.record.ext.isSome = true → fetch (off + 1) = i.record.ext) :
      DecodeOutcome fetch off w (decodeWith fetch off) := by
    have hwords := holdsWords_encode_iff.2 ⟨hw.trans hhead.symm, hext⟩
    rw [decodeWith_of_holdsWords hwords]
    exact .ok i hhead hwords
  cases hcheck : checkFirst w with
  | error e =>
    rw [decodeWith_of_checkFirst_error hw hcheck]
    rcases checkFirst_error hcheck with ⟨rfl, hop⟩ | ⟨rfl, hop⟩
    · exact .reserved hop
    · exact .noForm hop fun i hhead => by simp [checkFirst_of_head hhead] at hcheck
  | ok opMode =>
    obtain ⟨op, mode⟩ := opMode
    cases hmode : mode.hasExt with
    | false =>
      obtain ⟨i, hhead, hnone⟩ := exists_form_of_checkFirst hcheck none hmode.symm
      exact decoded hhead (by simp [hnone])
    | true =>
      cases hnext : fetch (off + 1) with
      | some e =>
        obtain ⟨i, hhead, hsome⟩ := exists_form_of_checkFirst hcheck (some e) hmode.symm
        exact decoded hhead fun _ => hnext.trans hsome.symm
      | none =>
        obtain ⟨i, hhead, hsome⟩ := exists_form_of_checkFirst hcheck (some 0) hmode.symm
        have hext : i.record.ext.isSome = true := by rw [hsome]; rfl
        rw [decodeWith_of_missing_ext hw hhead hext hnext]
        exact .cutOff i hhead ((length_encode_eq_two_iff i).2 hext) hnext

theorem decode_of_length_le {ws : List Word} {off : Nat} (h : ws.length ≤ off) : decode ws off = .err .outOfRange :=
  decodeWith_of_missing (List.getElem?_eq_none h)

theorem decode_outcome {ws : List Word} {off : Nat} {w : Word} (hw : ws[off]? = some w) :
    DecodeOutcome (fun a => ws[a]?) off w (decode ws off) :=
  decodeWith_outcome hw

/-- What a successful decode says: the sequence has a first Word, and holds the Words of the instruction. -/
theorem decode_ok {ws : List Word} {off n : Nat} {i : Instr} (h : decode ws off = .ok i n) :
    n = (encode i).length ∧ HoldsWords (fun a => ws[a]?) off (encode i) ∧
      ∃ w, ws[off]? = some w ∧ (encode i).head? = some w := by
  cases hw : ws[off]? with
  | none =>
    rw [decode_of_length_le (List.getElem?_eq_none_iff.1 hw)] at h
    cases h
  | some w =>
    have hout := decode_outcome hw
    rw [h] at hout
    cases hout with
    | ok _ hhead hwords => exact ⟨rfl, hwords, w, rfl, hhead⟩

/-- The length of an instruction by the code of its mode (R53, R54). -/
theorem length_encode_by_mode (i : Instr) :
    ((encode i).length = 2 ↔ i.record.mode.field.toNat ∈ [0, 3, 4]) ∧
      ((encode i).length = 1 ↔ i.record.mode.field.toNat ∈ [1, 2]) := by
  rw [encode_length_eq_len, Instr.len]
  cases i.record.mode <;> decide

end Sys2Proof.Laws

namespace Sys2Proof.Proofs

open Sys2Proof.Laws

/-- Settles O1: the checks of R63 pass on the first Word of any form and give back its fields. -/
theorem decodeInvertsEncode : Obligations.DecodeInvertsEncode := fun _ _ _ hwords =>
  decodeWith_of_holdsWords hwords

/-- Settles O2: of the outcomes of decode, the successful one holds the Words of its instruction. -/
theorem encodeInvertsDecode : Obligations.EncodeInvertsDecode := by
  intro ws off n i h
  obtain ⟨rfl, hwords, -⟩ := decode_ok h
  exact ⟨record_wf i, eq_take_drop_of_holdsWords hwords, rfl⟩

/-- Settles O3: each row of R57 has a form, and the form is read back from its record. -/
theorem wellFormedRecordsAreTheForms : Obligations.WellFormedRecordsAreTheForms := by
  intro x
  refine ⟨wf_iff_exists_form x, fun i j hi hj => record_injective (hi.trans hj.symm), ?_, fun h => ?_⟩
  · rintro i rfl
    exact encodeRecord_record i
  · simp [encodeRecord, h]

/-- Settles O4: every outcome but the reserved one is of a defined opcode. -/
theorem illegalOpcodeIffReservedOpcode : Obligations.IllegalOpcodeIffReservedOpcode := by
  intro ws off w hw
  rw [← op_eq_none_iff]
  have hout := decode_outcome hw
  generalize decode ws off = result at hout ⊢
  cases hout with
  | reserved hop => simp [hop]
  | noForm hop _ => simp [hop]
  | cutOff i hhead _ _ | ok i hhead _ => simp [op_of_head hhead]

/-- Settles O5: of the outcomes of decode, this one alone is of a defined opcode and no form. -/
theorem illegalOperandIffNoForm : Obligations.IllegalOperandIffNoForm := by
  intro ws off w hw
  have hdefined : 0x07FF < w.toNat ∧ w.toNat < 0xF800 ↔ Op.ofField (opcodeField w) ≠ none := by
    rw [Ne, op_eq_none_iff]
    omega
  rw [← and_assoc, hdefined]
  have hout := decode_outcome hw
  generalize decode ws off = result at hout ⊢
  cases hout with
  | reserved hop => simp [hop]
  | noForm hop hno => simp [hop, hno]
  | cutOff i hhead _ _ | ok i hhead _ => exact iff_of_false nofun fun ⟨_, hno⟩ => hno ⟨i, hhead⟩

/-- Settles O6: by what decode can answer, either Word missing. -/
theorem outOfRangeIffNeededWordMissing : Obligations.OutOfRangeIffNeededWordMissing := by
  refine ⟨fun ws off => ⟨fun h => ?_, ?_⟩, rfl⟩
  · cases hw : ws[off]? with
    | none => exact .inl (List.getElem?_eq_none_iff.1 hw)
    | some w =>
      have hout := decode_outcome hw
      rw [h] at hout
      cases hout with
      | cutOff i hhead hlen hmissing => exact .inr ⟨List.getElem?_eq_none_iff.1 hmissing, i, hlen, hhead.symm⟩
  · rintro (hoff | ⟨hend, i, hlen, hfirst⟩)
    · exact decode_of_length_le hoff
    · obtain ⟨w, hhead⟩ := exists_head i
      exact decodeWith_of_missing_ext (hfirst.trans hhead) hhead ((length_encode_eq_two_iff i).1 hlen)
        (List.getElem?_eq_none hend)

/-- Settles O7: the mode field of the first Word is the code of the instruction's mode, which fixes its length. -/
theorem lengthByModeField : Obligations.LengthByModeField := by
  intro ws off n i h
  obtain ⟨rfl, -, w, hw, hhead⟩ := decode_ok h
  refine ⟨w, hw, ?_⟩
  rw [← modeField_toNat, modeField_of_head hhead]
  exact length_encode_by_mode i

end Sys2Proof.Proofs

/-! SUPPORT and PROOFS, family 40_arithmetic_logic: the encodings of the two-operand forms, the value and the four flags
of each operation, and the template of R80 that writes them. -/

namespace Sys2Proof.Laws

open Sys2Proof.Machine

/-! ### The two forms of a shape DS instruction -/

/-- The encodings that the rules R82 to R92 print are the layout of R51, with the fields of an unused register 0. -/
theorem encodesDS_of_record {base : Word} {immForm : Reg → Word → Instr} {regForm : Reg → Reg → Instr} (op : Op)
    (himm : ∀ rd imm, (immForm rd imm).record = ⟨op, .imm, rd, .r0, some imm⟩)
    (hreg : ∀ rd rs, (regForm rd rs).record = ⟨op, .reg, rd, rs, none⟩)
    (hbase : base = op.field.setWidth 16 <<< 11) : EncodesDS base immForm regForm := by
  have himmMode : Mode.imm.field.setWidth 16 <<< 8 = (0 : Word) := rfl
  have hregMode : Mode.reg.field.setWidth 16 <<< 8 = (0x0100 : Word) := rfl
  have hunused : Reg.r0.field.setWidth 16 <<< 2 = (0 : Word) := rfl
  intro rd rs imm
  constructor
  · simp only [encode, himm, Instruction.words, firstWord, himmMode, hunused, hbase, rdBits]
    simp
  · simp only [encode, hreg, Instruction.words, firstWord, hregMode, hbase, rdBits, rsBits]

/-- A statement about both forms, from one about the operation `run` that both run: on the trailing Word with length 2,
and on the source register's value with length 1 (R62, R80). -/
theorem bothDS_of_exec {immForm : Reg → Word → Instr} {regForm : Reg → Reg → Instr}
    {P : Instr → Reg → Nat → Word → State → Prop} (run : Reg → Nat → Word → State → Outcome)
    (himm : ∀ rd imm s, exec (immForm rd imm) s = run rd 2 imm s)
    (hreg : ∀ rd rs s, exec (regForm rd rs) s = run rd 1 (s.regs.get rs) s)
    (h : ∀ {i rd len b s}, exec i s = run rd len b s → P i rd len b s) : BothDS immForm regForm P :=
  fun rd s => ⟨fun imm => h (himm rd imm s), fun rs => h (hreg rd rs s)⟩

/-! ### A result with its flags (R81), and the template that writes it (R80) -/

/-- `r` holds the value `v` with the `Z` and `S` of `v` (R81), `C` iff `c` and `V` iff `o`. -/
structure Computes (r : AluResult) (v : Word) (c o : Prop) : Prop where
  value_eq : r.value = v
  z_iff : r.flags.z = true ↔ v = 0
  s_eq : r.flags.s = v.getLsbD 15
  c_iff : r.flags.c = true ↔ c
  v_iff : r.flags.v = true ↔ o

theorem computes_setZS {v : Word} {carry overflow : Bool} {c o : Prop} (hc : carry = true ↔ c)
    (ho : overflow = true ↔ o) : Computes (setZS v carry overflow) v c o :=
  ⟨rfl, decide_eq_true_iff, rfl, hc, ho⟩

/-- An instruction with neither carry nor overflow clears `C` and `V` (R85 to R89). -/
theorem computes_setZS_clear (v : Word) : Computes (setZS v false false) v False False :=
  computes_setZS (by simp) (by simp)

/-- The template of R80 writes the result's value and flags, advances `pc`, and keeps the rest. -/
theorem computesTo_of_aluWrite {i : Instr} {s : State} {rd : Reg} {len : Nat} {r : AluResult} {v : Word} {c o : Prop}
    (h : exec i s = aluWrite rd len r s) (hr : Computes r v c o) : ComputesTo i s rd len v c o :=
  ⟨_, h, by rw [← hr.value_eq]; exact RegFile.get_set_same _ _ _, fun _ hq => RegFile.get_set_other hq,
    hr.z_iff, hr.s_eq, hr.c_iff, hr.v_iff, rfl, nextPc_eq_add len s, fun _ => rfl, rfl, rfl, rfl, rfl⟩

/-- `bothDS_of_exec` for an operation `f` that cannot fault: both forms run the template of R80 on its result. -/
theorem bothDS_of_aluWrite {immForm : Reg → Word → Instr} {regForm : Reg → Reg → Instr}
    {P : Instr → Reg → Nat → Word → State → Prop} (f : Word → Word → AluResult)
    (himm : ∀ rd imm s, exec (immForm rd imm) s = aluWrite rd 2 (f (s.regs.get rd) imm) s)
    (hreg : ∀ rd rs s, exec (regForm rd rs) s = aluWrite rd 1 (f (s.regs.get rd) (s.regs.get rs)) s)
    (h : ∀ {i rd len b s}, exec i s = aluWrite rd len (f (s.regs.get rd) b) s → P i rd len b s) :
    BothDS immForm regForm P :=
  bothDS_of_exec (fun rd len b s => aluWrite rd len (f (s.regs.get rd) b) s) himm hreg h

/-! ### Sums, differences and products (R82, R83, R84) -/

/-- Bit 15 by itself, as the mask of R82 and R83 picks it out. -/
theorem and_signMask_ne_zero_iff (x : Word) : x &&& 0x8000 ≠ 0 ↔ x.getLsbD 15 = true := by
  rw [show (0x8000 : Word) = BitVec.twoPow 16 15 from rfl, BitVec.and_twoPow]
  cases x.getLsbD 15 <;> decide

/-- A sum overflows iff the operands have one sign and the result has the other (R82). -/
theorem add_overflow_iff (a b : Word) :
    (a.getLsbD 15 = b.getLsbD 15 ∧ (a + b).getLsbD 15 ≠ a.getLsbD 15) ↔ OutsideSigned (s16 a + s16 b) := by
  have ha := a.isLt
  have hb := b.isLt
  simp only [getLsbD_15, BitVec.toNat_add, OutsideSigned, s16, ne_eq, decide_eq_decide]
  split_ifs <;> omega

/-- A difference overflows iff the operands differ in sign and the result has not the minuend's (R83). -/
theorem sub_overflow_iff (a b : Word) :
    (a.getLsbD 15 ≠ b.getLsbD 15 ∧ (trunc16 ((a.toNat : Int) - b.toNat)).getLsbD 15 ≠ a.getLsbD 15) ↔
      OutsideSigned (s16 a - s16 b) := by
  have ha := a.isLt
  have hb := b.isLt
  have hr := trunc16_toNat ((a.toNat : Int) - b.toNat)
  simp only [getLsbD_15, OutsideSigned, s16, ne_eq, decide_eq_decide]
  split_ifs <;> omega

/-- The mask form of the overflow of a sum (R82). -/
theorem add_overflow_mask_iff (a b r : Word) :
    (a ^^^ r) &&& (b ^^^ r) &&& 0x8000 ≠ 0 ↔ a.getLsbD 15 = b.getLsbD 15 ∧ r.getLsbD 15 ≠ a.getLsbD 15 := by
  rw [and_signMask_ne_zero_iff, BitVec.getLsbD_and, BitVec.getLsbD_xor, BitVec.getLsbD_xor]
  generalize a.getLsbD 15 = x, b.getLsbD 15 = y, r.getLsbD 15 = z
  revert x y z
  decide

/-- The mask form of the overflow of a difference (R83). -/
theorem sub_overflow_mask_iff (a b r : Word) :
    (a ^^^ b) &&& (a ^^^ r) &&& 0x8000 ≠ 0 ↔ a.getLsbD 15 ≠ b.getLsbD 15 ∧ r.getLsbD 15 ≠ a.getLsbD 15 := by
  rw [and_signMask_ne_zero_iff, BitVec.getLsbD_and, BitVec.getLsbD_xor, BitVec.getLsbD_xor]
  generalize a.getLsbD 15 = x, b.getLsbD 15 = y, r.getLsbD 15 = z
  revert x y z
  decide

theorem trunc16_add (a b : Word) : trunc16 (a.toNat + b.toNat : Nat) = a + b := by
  rw [trunc16_natCast, BitVec.ofNat_add, BitVec.ofNat_toNat, BitVec.ofNat_toNat, BitVec.setWidth_eq, BitVec.setWidth_eq]

theorem computes_addResult (a b : Word) :
    Computes (addResult a b) (BitVec.ofNat 16 (a.toNat + b.toNat)) (65536 ≤ a.toNat + b.toNat)
      (OutsideSigned (s16 a + s16 b)) := by
  rw [← trunc16_natCast, ← add_overflow_iff, ← trunc16_add]
  exact computes_setZS decide_eq_true_iff decide_eq_true_iff

theorem computes_subResult (a b : Word) :
    Computes (subResult a b) (trunc16 ((a.toNat : Int) - b.toNat)) (a.toNat < b.toNat)
      (OutsideSigned (s16 a - s16 b)) :=
  computes_setZS decide_eq_true_iff (decide_eq_true_iff.trans (sub_overflow_iff a b))

/-- The low half of a product is the same in both readings of the operands: each reading has the Word as its residue. -/
theorem trunc16_s16_mul (a b : Word) : trunc16 (s16 a * s16 b) = BitVec.ofNat 16 (a.toNat * b.toNat) :=
  calc trunc16 (s16 a * s16 b) = a * b := by
        rw [s16_eq_toInt, s16_eq_toInt, trunc16, BitVec.ofInt_mul, BitVec.ofInt_toInt, BitVec.ofInt_toInt]
    _ = BitVec.ofNat 16 (a.toNat * b.toNat) := by
        rw [BitVec.ofNat_mul, BitVec.ofNat_toNat, BitVec.ofNat_toNat, BitVec.setWidth_eq, BitVec.setWidth_eq]

theorem computes_mulResult (a b : Word) :
    Computes (mulResult a b) (BitVec.ofNat 16 (a.toNat * b.toNat)) (65536 ≤ a.toNat * b.toNat)
      (OutsideSigned (s16 a * s16 b)) := by
  rw [← trunc16_natCast]
  exact computes_setZS decide_eq_true_iff decide_eq_true_iff

/-! ### Comparison (R92) -/

/-- A difference is 0 in 16 bits only of equal operands. -/
theorem trunc16_sub_eq_zero_iff (a b : Word) : trunc16 ((a.toNat : Int) - b.toNat) = 0 ↔ a = b := by
  have hr := trunc16_toNat ((a.toNat : Int) - b.toNat)
  have ha := a.isLt
  have hb := b.isLt
  rw [← BitVec.toNat_inj, ← BitVec.toNat_inj, show (0 : Word).toNat = 0 from rfl]
  omega

/-- The sign of a difference, corrected by its overflow, is the signed order (R92). -/
theorem sub_sign_iff (a b : Word) :
    ((trunc16 ((a.toNat : Int) - b.toNat)).getLsbD 15 = true ↔ ¬ OutsideSigned (s16 a - s16 b)) ↔ s16 a < s16 b := by
  have ha := a.isLt
  have hb := b.isLt
  have hr := trunc16_toNat ((a.toNat : Int) - b.toNat)
  simp only [getLsbD_15, OutsideSigned, s16, decide_eq_true_iff]
  split_ifs <;> omega

/-- `S` and `V` after a subtraction differ iff the minuend is less in the signed order (R92). -/
theorem subResult_s_ne_v_iff (a b : Word) :
    (subResult a b).flags.s ≠ (subResult a b).flags.v ↔ s16 a < s16 b := by
  have hr := computes_subResult a b
  rw [← sub_sign_iff, ← hr.s_eq, ← hr.v_iff]
  cases (subResult a b).flags.s <;> cases (subResult a b).flags.v <;> decide

/-! ### Division (R85, R86) -/

/-- The divisor test of the model, on the Word's value. -/
theorem toNat_ne_zero {b : Word} (hb : b ≠ 0) : b.toNat ≠ 0 := BitVec.toNat_ne.1 hb

theorem divResult_of_ne_zero {a b : Word} (hb : b ≠ 0) :
    divResult a b = .ok (setZS (BitVec.ofNat 16 (a.toNat / b.toNat)) false false) := by
  rw [divResult, if_neg (toNat_ne_zero hb), trunc16_natCast]

theorem modResult_of_ne_zero {a b : Word} (hb : b ≠ 0) :
    modResult a b = .ok (setZS (BitVec.ofNat 16 (a.toNat % b.toNat)) false false) := by
  rw [modResult, if_neg (toNat_ne_zero hb), trunc16_natCast]

theorem divResult_zero (a : Word) : divResult a 0 = .error .divisionByZero := rfl

theorem modResult_zero (a : Word) : modResult a 0 = .error .divisionByZero := rfl

/-- A remainder fits in a Word. -/
theorem remainder_toNat (a b : Word) : (BitVec.ofNat 16 (a.toNat % b.toNat)).toNat = a.toNat % b.toNat := by
  rw [← BitVec.toNat_umod, BitVec.ofNat_toNat, BitVec.setWidth_eq]

/-! ### Shifts by a whole count (R90, R91) -/

theorem shiftLeft_eq_ofNat (a : Word) (n : Nat) : a <<< n = BitVec.ofNat 16 (a.toNat * 2 ^ n) :=
  BitVec.eq_of_toNat_eq (by rw [BitVec.toNat_shiftLeft, Nat.shiftLeft_eq, BitVec.toNat_ofNat])

theorem ushiftRight_eq_ofNat (a : Word) (n : Nat) : a >>> n = BitVec.ofNat 16 (a.toNat / 2 ^ n) := by
  rw [← Nat.shiftRight_eq_div_pow, ← BitVec.toNat_ushiftRight, BitVec.ofNat_toNat, BitVec.setWidth_eq]

/-- Bit 16 of `a * 2^n` is bit `16 - n` of `a`, if there is such a bit (R90). -/
theorem testBit_16_shifted_iff (a : Word) (n : Nat) :
    (a.toNat * 2 ^ n).testBit 16 = true ↔ 1 ≤ n ∧ n ≤ 16 ∧ a.getLsbD (16 - n) = true := by
  rw [Nat.testBit_mul_two_pow, Bool.and_eq_true, decide_eq_true_iff, ← BitVec.getLsbD]
  refine ⟨fun ⟨hle, hbit⟩ => ⟨?_, hle, hbit⟩, fun ⟨_, hle, hbit⟩ => ⟨hle, hbit⟩⟩
  have := BitVec.lt_of_getLsbD hbit
  omega

/-- The last bit that a right shift by `n` moves out is bit `n - 1`, if there is such a bit (R91). -/
theorem shifted_out_right_iff (a : Word) (n : Nat) :
    2 * a.toNat / 2 ^ n % 2 = 1 ↔ 1 ≤ n ∧ n ≤ 16 ∧ a.getLsbD (n - 1) = true := by
  cases n with
  | zero => simp
  | succ m =>
    have hbit : 2 * a.toNat / 2 ^ (m + 1) % 2 = 1 ↔ a.getLsbD m = true := by
      rw [pow_succ', Nat.mul_div_mul_left _ _ (by decide), BitVec.getLsbD, Nat.testBit_eq_decide_div_mod_eq,
        decide_eq_true_iff]
    rw [hbit, Nat.add_sub_cancel]
    refine ⟨fun h => ⟨by omega, ?_, h⟩, fun ⟨_, _, h⟩ => h⟩
    have := BitVec.lt_of_getLsbD h
    omega

theorem computes_shlResult (a b : Word) :
    Computes (shlResult a b) (a <<< b.toNat)
      (1 ≤ b.toNat ∧ b.toNat ≤ 16 ∧ a.getLsbD (16 - b.toNat) = true) False := by
  rw [shiftLeft_eq_ofNat, ← trunc16_natCast]
  exact computes_setZS (testBit_16_shifted_iff a b.toNat) (by simp)

theorem computes_shrResult (a b : Word) :
    Computes (shrResult a b) (a >>> b.toNat)
      (1 ≤ b.toNat ∧ b.toNat ≤ 16 ∧ a.getLsbD (b.toNat - 1) = true) False := by
  rw [ushiftRight_eq_ofNat, ← trunc16_natCast]
  exact computes_setZS (decide_eq_true_iff.trans (shifted_out_right_iff a b.toNat)) (by simp)

end Sys2Proof.Laws

namespace Sys2Proof.Proofs

open Sys2Proof.Machine Sys2Proof.Laws

/-- Settles O9: the template writes the sum; its overflow is the rule of signs, as bits or as a mask. -/
theorem addSumCarryOverflow : Obligations.AddSumCarryOverflow := by
  refine ⟨encodesDS_of_record .add (fun _ _ => rfl) (fun _ _ => rfl) rfl, ?_, ?_⟩
  · exact bothDS_of_aluWrite addResult (fun _ _ _ => rfl) (fun _ _ _ => rfl) fun h =>
      computesTo_of_aluWrite h (computes_addResult _ _)
  · rintro a b r rfl
    exact ⟨add_overflow_iff a b, (add_overflow_mask_iff a b _).trans (add_overflow_iff a b)⟩

/-- Settles O10: the template writes the difference; its overflow is the rule of signs, as bits or as a mask. -/
theorem subDifferenceBorrowOverflow : Obligations.SubDifferenceBorrowOverflow := by
  refine ⟨encodesDS_of_record .sub (fun _ _ => rfl) (fun _ _ => rfl) rfl, ?_, ?_⟩
  · exact bothDS_of_aluWrite subResult (fun _ _ _ => rfl) (fun _ _ _ => rfl) fun h =>
      computesTo_of_aluWrite h (computes_subResult _ _)
  · rintro a b r rfl
    exact ⟨sub_overflow_iff a b, (sub_overflow_mask_iff a b _).trans (sub_overflow_iff a b)⟩

/-- Settles O11: the template writes the low half, which is that of the signed product. -/
theorem mulLowHalfAndFit : Obligations.MulLowHalfAndFit := by
  refine ⟨encodesDS_of_record .mul (fun _ _ => rfl) (fun _ _ => rfl) rfl, ?_, trunc16_s16_mul⟩
  exact bothDS_of_aluWrite mulResult (fun _ _ _ => rfl) (fun _ _ _ => rfl) fun h =>
    computesTo_of_aluWrite h (computes_mulResult _ _)

/-- Settles O15: the count is a number and is never reduced; `C` is the bit that `a * 2^n` carries past bit 15. -/
theorem shlByWholeCount : Obligations.ShlByWholeCount := by
  refine ⟨encodesDS_of_record .shl (fun _ _ => rfl) (fun _ _ => rfl) rfl, ?_, fun a n => ?_⟩
  · exact bothDS_of_aluWrite shlResult (fun _ _ _ => rfl) (fun _ _ _ => rfl) fun h =>
      computesTo_of_aluWrite h (computes_shlResult _ _)
  · exact ⟨shiftLeft_eq_ofNat a n, BitVec.shiftLeft_eq_zero, testBit_16_shifted_iff a n⟩

/-- Settles O16: the count is a number and is never reduced; `C` is the last bit moved out. -/
theorem shrByWholeCount : Obligations.ShrByWholeCount := by
  refine ⟨encodesDS_of_record .shr (fun _ _ => rfl) (fun _ _ => rfl) rfl, ?_, fun a n => ?_⟩
  · exact bothDS_of_aluWrite shrResult (fun _ _ _ => rfl) (fun _ _ _ => rfl) fun h =>
      computesTo_of_aluWrite h (computes_shrResult _ _)
  · exact ⟨ushiftRight_eq_ofNat a n, BitVec.ushiftRight_eq_zero, shifted_out_right_iff a n⟩

/-- Settles O17: the flags are those of the difference, and CMP's template writes no register. -/
theorem cmpOrdersItsOperands : Obligations.CmpOrdersItsOperands := by
  refine ⟨encodesDS_of_record .cmp (fun _ _ => rfl) (fun _ _ => rfl) rfl, ?_⟩
  refine bothDS_of_exec (fun rd len b s => aluTest len (subResult (s.regs.get rd) b) s) (fun _ _ _ => rfl)
    (fun _ _ _ => rfl) @fun i rd len b s h => ?_
  have hr := computes_subResult (s.regs.get rd) b
  exact ⟨_, h, hr.z_iff.trans (trunc16_sub_eq_zero_iff _ b), hr.c_iff, hr.s_eq, hr.v_iff, subResult_s_ne_v_iff _ b,
    fun _ => rfl, rfl, nextPc_eq_add len s, fun _ => rfl, rfl, rfl, rfl, rfl⟩

/-- Settles O12: by the two cases of the divisor. -/
theorem divQuotientOrFault : Obligations.DivQuotientOrFault := by
  refine ⟨encodesDS_of_record .div (fun _ _ => rfl) (fun _ _ => rfl) rfl, ?_⟩
  refine bothDS_of_exec (fun rd len b s => aluTry rd len (divResult (s.regs.get rd) b) s) (fun _ _ _ => rfl)
    (fun _ _ _ => rfl) fun h => ⟨fun hb => ?_, ?_⟩
  · rw [divResult_of_ne_zero hb, aluTry_ok] at h
    exact computesTo_of_aluWrite h (computes_setZS_clear _)
  · rintro rfl
    rwa [divResult_zero, aluTry_error] at h

/-- Settles O13: by the two cases of the divisor; the remainder fits, so its law is that of the naturals. -/
theorem modRemainderOrFault : Obligations.ModRemainderOrFault := by
  refine ⟨encodesDS_of_record .mod (fun _ _ => rfl) (fun _ _ => rfl) rfl, ?_⟩
  refine bothDS_of_exec (fun rd len b s => aluTry rd len (modResult (s.regs.get rd) b) s) (fun _ _ _ => rfl)
    (fun _ _ _ => rfl) fun h => ⟨fun hb => ?_, ?_⟩
  · rw [modResult_of_ne_zero hb, aluTry_ok] at h
    have hpos := Nat.pos_of_ne_zero (toNat_ne_zero hb)
    rw [remainder_toNat]
    exact ⟨computesTo_of_aluWrite h (computes_setZS_clear _), Nat.mod_lt _ hpos, (Nat.div_add_mod' _ _).symm⟩
  · rintro rfl
    rwa [modResult_zero, aluTry_error] at h

/-- Settles O14: each is the template on its bitwise result. -/
theorem logicBitwise : Obligations.LogicBitwise := by
  refine ⟨encodesDS_of_record .and (fun _ _ => rfl) (fun _ _ => rfl) rfl,
    encodesDS_of_record .or (fun _ _ => rfl) (fun _ _ => rfl) rfl,
    encodesDS_of_record .xor (fun _ _ => rfl) (fun _ _ => rfl) rfl, ?_, ?_, ?_⟩
  · exact bothDS_of_aluWrite andResult (fun _ _ _ => rfl) (fun _ _ _ => rfl) fun h =>
      computesTo_of_aluWrite h (computes_setZS_clear _)
  · exact bothDS_of_aluWrite orResult (fun _ _ _ => rfl) (fun _ _ _ => rfl) fun h =>
      computesTo_of_aluWrite h (computes_setZS_clear _)
  · exact bothDS_of_aluWrite xorResult (fun _ _ _ => rfl) (fun _ _ _ => rfl) fun h =>
      computesTo_of_aluWrite h (computes_setZS_clear _)

end Sys2Proof.Proofs

/-! SUPPORT and PROOFS, family 41_move_memory: the encodings of the memory modes, what MOV and ST complete with, and the
fault of an effective address outside memory. -/

namespace Sys2Proof.Laws

open Sys2Proof.Machine

/-! ### Encodings from a base that holds opcode and mode -/

/-- A register field that a form does not use adds nothing to the first Word (R59). -/
@[simp] theorem rdBits_r0 : rdBits .r0 = 0 := rfl

@[simp] theorem rsBits_r0 : rsBits .r0 = 0 := rfl

/-- An instruction rule prints a first Word as a base, which is the layout of R51 with both register fields 0, and the
register fields. -/
theorem encode_of_base {rd rs : Reg} {ext : Option Word} (i : Instr) (base : Word) (op : Op) (mode : Mode)
    (hrecord : i.record = ⟨op, mode, rd, rs, ext⟩) (hbase : base = firstWord op.field mode.field 0 0) :
    encode i = (base ||| rdBits rd ||| rsBits rs) :: ext.toList := by
  rw [encode_eq, hrecord, hbase]
  simp [firstWord, rdBits, rsBits]

theorem encode_ldInd (rd rs : Reg) : encode (.ldInd rd rs) = [0x7200 ||| rdBits rd ||| rsBits rs] :=
  encode_of_base (ext := none) (.ldInd rd rs) 0x7200 .ld .rind rfl (by decide)

theorem encode_ldDir (rd : Reg) (x : Word) : encode (.ldDir rd x) = [0x7300 ||| rdBits rd, x] := by
  simpa using encode_of_base (.ldDir rd x) 0x7300 .ld .mdir rfl (by decide)

theorem encode_ldSp (rd : Reg) (x : Word) : encode (.ldSp rd x) = [0x7400 ||| rdBits rd, x] := by
  simpa using encode_of_base (.ldSp rd x) 0x7400 .ld .srel rfl (by decide)

theorem encode_stInd (rd rs : Reg) : encode (.stInd rd rs) = [0x7A00 ||| rdBits rd ||| rsBits rs] :=
  encode_of_base (ext := none) (.stInd rd rs) 0x7A00 .st .rind rfl (by decide)

theorem encode_stDir (x : Word) (rs : Reg) : encode (.stDir x rs) = [0x7B00 ||| rsBits rs, x] := by
  simpa using encode_of_base (.stDir x rs) 0x7B00 .st .mdir rfl (by decide)

theorem encode_stSp (x : Word) (rs : Reg) : encode (.stSp x rs) = [0x7C00 ||| rsBits rs, x] := by
  simpa using encode_of_base (.stSp x rs) 0x7C00 .st .srel rfl (by decide)

/-! ### What MOV, LD and ST complete with, or fault with -/

/-- A commit of one register write and the advance of `pc` sets that register and keeps the rest. -/
theorem setsReg_of_commit {i : Instr} {s : State} {rd : Reg} {len : Nat} {v : Word}
    (h : exec i s = commit (advance len (s.setReg rd v))) : SetsReg i s rd len v :=
  ⟨_, h, RegFile.get_set_same _ _ _, fun _ hq => RegFile.get_set_other hq, rfl, rfl, nextPc_eq_add len s,
    fun _ => rfl, rfl, rfl, rfl, rfl⟩

/-- A LD in any mode from outside memory faults (R102). -/
theorem exec_loadForm_of_le {s : State} {i : Instr} {ea len : Nat} {rd : Reg} (h : LoadForm s i ea rd len)
    (hea : s.cfg.memWords ≤ ea) : exec i s = .next (faultedWith .memoryOutOfBounds s) := by
  cases h <;> exact loadReg_of_le hea

/-- A ST in any mode to outside memory faults (R103). -/
theorem exec_storeForm_of_le {s : State} {i : Instr} {ea : Nat} {v : Word} (h : StoreForm s i ea v)
    (hea : s.cfg.memWords ≤ ea) : exec i s = .next (faultedWith .memoryOutOfBounds s) := by
  cases h <;> exact storeReg_of_le hea

/-- A ST in any mode to a valid address, with its frame (R103). The canonical form is what makes the Word read back and
every other byte read as before. -/
theorem storeForm_stores {s : State} {i : Instr} {ea : Nat} {v : Word} (hwf : s.mem.wf = true)
    (h : StoreForm s i ea v) (hea : ea < s.cfg.memWords) : Stores i s i.len ea v :=
  ⟨_, exec_storeForm h hea, Memory.readWord_writeWord_same hwf, fun _ hb => Memory.readByte_writeWord_other hwf hb,
    fun _ => rfl, rfl, rfl, nextPc_eq_add i.len s, rfl, rfl, rfl, rfl⟩

end Sys2Proof.Laws

namespace Sys2Proof.Proofs

open Sys2Proof.Machine Sys2Proof.Laws

/-- Settles O20: the three modes are the constructors of `StoreForm`, and every ST stores or faults by its address. -/
theorem stWritesEffectiveAddress : Obligations.StWritesEffectiveAddress := by
  intro s rd rs x hwf
  have ind := StoreForm.ind (s := s) rd rs
  have dir := StoreForm.dir (s := s) x rs
  have sp := StoreForm.sp (s := s) x rs
  exact ⟨encode_stInd rd rs, encode_stDir x rs, encode_stSp x rs, rfl, rfl, eaSp_eq x s,
    storeForm_stores hwf ind, storeForm_stores hwf dir, storeForm_stores hwf sp,
    exec_storeForm_of_le ind, exec_storeForm_of_le dir, exec_storeForm_of_le sp⟩

/-- Settles O18: both forms commit the write of the source value to `x[rd]` and nothing else but `pc`. -/
theorem movCopiesTheSource : Obligations.MovCopiesTheSource := by
  refine ⟨encodesDS_of_record .mov (fun _ _ => rfl) (fun _ _ => rfl) rfl, ?_⟩
  exact bothDS_of_exec (fun rd len v s => commit (advance len (s.setReg rd v))) (fun _ _ _ => rfl)
    (fun _ _ _ => rfl) setsReg_of_commit

/-- Settles O19: the three modes are the constructors of `LoadForm`, and every LD loads or faults by its address. -/
theorem ldReadsEffectiveAddress : Obligations.LdReadsEffectiveAddress := by
  intro s rd rs x
  have ind := LoadForm.ind (s := s) rd rs
  have dir := LoadForm.dir (s := s) rd x
  have sp := LoadForm.sp (s := s) rd x
  exact ⟨encode_ldInd rd rs, encode_ldDir rd x, encode_ldSp rd x, rfl, rfl, eaSp_eq x s,
    loadForm_setsReg ind, loadForm_setsReg dir, loadForm_setsReg sp,
    exec_loadForm_of_le ind, exec_loadForm_of_le dir, exec_loadForm_of_le sp⟩

end Sys2Proof.Proofs

/-! SUPPORT and PROOFS, family 42_stack: the two forms of a shape S instruction, and what a push, a pop and a move of
`sp` complete with, or fault with. -/

namespace Sys2Proof.Laws

open Sys2Proof.Machine

/-! ### The two forms of a shape S instruction -/

/-- The encodings that the rules of shape S instructions print are the layout of R51, with the fields of an unused
register 0. -/
theorem encodesS_of_record {base : Word} {immForm : Word → Instr} {regForm : Reg → Instr} (op : Op)
    (himm : ∀ imm, (immForm imm).record = ⟨op, .imm, .r0, .r0, some imm⟩)
    (hreg : ∀ rs, (regForm rs).record = ⟨op, .reg, .r0, rs, none⟩)
    (hbase : base = op.field.setWidth 16 <<< 11) : EncodesS base immForm regForm := by
  have himmBase : base = firstWord op.field Mode.imm.field 0 0 := by simp [hbase, firstWord, Mode.field]
  have hregBase : base ||| 0x0100 = firstWord op.field Mode.reg.field 0 0 := by simp [hbase, firstWord, Mode.field]
  intro rs imm
  constructor
  · simpa using encode_of_base (immForm imm) base op .imm (himm imm) himmBase
  · simpa using encode_of_base (regForm rs) (base ||| 0x0100) op .reg (hreg rs) hregBase

/-- A statement about both forms, from one about the operation `run` that both run: on the trailing Word with length 2,
and on the source register's value with length 1 (R62). -/
theorem bothS_of_exec {immForm : Word → Instr} {regForm : Reg → Instr} {P : Instr → Nat → Word → State → Prop}
    (run : Nat → Word → State → Outcome) (himm : ∀ imm s, exec (immForm imm) s = run 2 imm s)
    (hreg : ∀ rs s, exec (regForm rs) s = run 1 (s.regs.get rs) s)
    (h : ∀ {i len v s}, exec i s = run len v s → P i len v s) : BothS immForm regForm P :=
  fun s => ⟨fun imm => h (himm imm s), fun rs => h (hreg rs s)⟩

/-- What follows from a statement about both forms holds of both forms. -/
theorem bothS_mono {immForm : Word → Instr} {regForm : Reg → Instr} {P Q : Instr → Nat → Word → State → Prop}
    (h : BothS immForm regForm P) (himp : ∀ {i len v s}, P i len v s → Q i len v s) : BothS immForm regForm Q :=
  fun s => ⟨fun imm => himp ((h s).1 imm), fun rs => himp ((h s).2 rs)⟩

/-! ### Pushing -/

/-- With `sp = 0` a push would use the slot -1, which no region holds (R110, R111). -/
theorem not_pushSlot_of_sp_zero {s : State} (h : s.sp = 0) : ¬ PushSlot s := by
  have hsp : s.sp.toNat = 0 := by rw [h]; rfl
  rintro ⟨hlo, -⟩
  omega

/-- A push into a slot, by an instruction that then sets `pc` to `target`, completes with the frame of R111. The
canonical form is what makes the Word read back and every other byte read as before. -/
theorem pushes_of_slot {i : Instr} {s : State} {v target : Word} {setPc : State → State} (hwf : s.mem.wf = true)
    (hexec : exec i s = finish s ((push v s).map setPc)) (hpc : ∀ u, u.pc = s.pc → setPc u = jumpTo target u)
    (hslot : PushSlot s) : Pushes i s v target := by
  have h := (pushSlot_iff s).1 hslot
  obtain ⟨hpos, hsp⟩ := pushed_sp h
  rw [push_of_slot h] at hexec
  refine ⟨_, hexec.trans (congrArg commit (hpc _ rfl)), ?_, Memory.readWord_writeWord_same hwf,
    fun _ hb => Memory.readByte_writeWord_other hwf hb, fun _ => rfl, rfl, rfl, rfl, rfl, rfl, rfl⟩
  change ((trunc16 ((s.sp.toNat : Int) - 1)).toNat : Int) = _
  omega

/-- A push into no slot faults, whatever the instruction would do next (R111). -/
theorem finish_push_of_not_slot {s : State} (v : Word) (setPc : State → State) (hslot : ¬ PushSlot s) :
    finish s ((push v s).map setPc) = .next (faultedWith .stackOverflow s) := by
  rw [pushSlot_iff, Bool.not_eq_true] at hslot
  rw [push_of_not_slot hslot]
  rfl

/-- The default PC update of a state whose `pc` is that of `s` (R13). -/
theorem advance_eq_jumpTo {s u : State} (len : Nat) (h : u.pc = s.pc) :
    advance len u = jumpTo (s.pc + BitVec.ofNat 16 len) u := by
  rw [← h, ← nextPc_eq_add]
  rfl

/-! ### Popping -/

/-- A pop from a slot commits what the instruction makes of the slot's Word and the moved `sp` (R112). -/
theorem finish_pop_of_slot {s : State} (g : Word × State → State) (hslot : PopSlot s) :
    finish s ((pop s).map g) =
      commit (g (s.mem.readWord s.sp.toNat, { s with sp := trunc16 (s.sp.toNat + 1) })) := by
  rw [pop_of_slot ((popSlot_iff s).1 hslot)]
  rfl

/-- A pop from no slot faults, whatever the instruction would do next (R112). -/
theorem finish_pop_of_not_slot {s : State} (g : Word × State → State) (hslot : ¬ PopSlot s) :
    finish s ((pop s).map g) = .next (faultedWith .stackUnderflow s) := by
  rw [popSlot_iff, Bool.not_eq_true] at hslot
  rw [pop_of_not_slot hslot]
  rfl

/-- The slot that a push used is the one that the next pop uses (R111, R112). -/
theorem popSlot_of_pushed {s t : State} (hslot : PushSlot s) (hcfg : t.cfg = s.cfg)
    (hsp : (t.sp.toNat : Int) = (s.sp.toNat : Int) - 1) : PopSlot t := by
  obtain ⟨hlo, hhi⟩ := hslot
  constructor <;> rw [hcfg] <;> omega

theorem encode_pop (rd : Reg) : encode (.pop rd) = [0x8900 ||| rdBits rd] := by
  simpa using encode_of_base (.pop rd) 0x8900 .pop .reg rfl (by decide)

/-! ### Moving `sp` -/

/-- A commit of one write to `sp` and the advance of `pc` sets `sp` and keeps the rest. -/
theorem setsSp_of_commit {i : Instr} {s : State} {len : Nat} {v : Word}
    (h : exec i s = commit (advance len (s.setSp v))) : SetsSp i s len v :=
  ⟨_, h, rfl, fun _ => rfl, rfl, nextPc_eq_add len s, fun _ => rfl, rfl, rfl, rfl, rfl⟩

theorem encode_gsp (rd : Reg) : encode (.gsp rd) = [0x9900 ||| rdBits rd] := by
  simpa using encode_of_base (.gsp rd) 0x9900 .gsp .reg rfl (by decide)

end Sys2Proof.Laws

namespace Sys2Proof.Proofs

open Sys2Proof.Machine Sys2Proof.Laws

/-- Settles O24: both forms push the source value and advance; `sp - 1` is a slot, or the push faults. -/
theorem pushWritesTheSlotBelow : Obligations.PushWritesTheSlotBelow := by
  refine ⟨encodesS_of_record .push (fun _ => rfl) (fun _ => rfl) rfl, ?_, fun s => not_pushSlot_of_sp_zero⟩
  refine bothS_of_exec (fun len v s => finish s ((push v s).map (advance len))) (fun _ _ => rfl) (fun _ _ => rfl)
    @fun i len v s h hwf => ⟨?_, fun hslot => ?_⟩
  · exact pushes_of_slot hwf h fun _ => advance_eq_jumpTo len
  · exact h.trans (finish_push_of_not_slot v _ hslot)

/-- Settles O25: `sp` is a slot, or the pop faults; a legal Config is what shuts out the wrap of `sp + 1`. -/
theorem popReadsTheSlot : Obligations.PopReadsTheSlot := by
  intro s rd hc
  refine ⟨encode_pop rd, fun hslot => ?_, finish_pop_of_not_slot _⟩
  exact ⟨_, finish_pop_of_slot _ hslot, RegFile.get_set_same _ _ _, fun _ hq => RegFile.get_set_other hq,
    popped_sp hc ((popSlot_iff s).1 hslot), rfl, nextPc_eq_add 1 s, fun _ => rfl, rfl, rfl, rfl, rfl⟩

/-- Settles O26: each form commits one write, unchecked, and the advance of `pc`. -/
theorem sspAndGspMoveTheStackPointer : Obligations.SspAndGspMoveTheStackPointer := by
  refine ⟨encodesS_of_record .ssp (fun _ => rfl) (fun _ => rfl) rfl, ?_, fun s rd => ?_⟩
  · exact bothS_of_exec (fun len v s => commit (advance len (s.setSp v))) (fun _ _ => rfl) (fun _ _ => rfl)
      setsSp_of_commit
  · exact ⟨encode_gsp rd, setsReg_of_commit rfl⟩

/-- Settles O27: the PUSH leaves `sp` at the slot it wrote (O24), which is the slot the POP reads (O25). -/
theorem popReturnsWhatPushPushed : Obligations.PopReturnsWhatPushPushed := by
  obtain ⟨-, hpushes, -⟩ := pushWritesTheSlotBelow
  refine bothS_mono hpushes @fun i len v s hpush t rd hs hslot hexec => ?_
  obtain ⟨hc, hwf, -, -⟩ := hs
  obtain ⟨t', hexec', hsp, hword, -, hregs, -, -, hcfg, -⟩ := (hpush hwf).1 hslot
  cases hexec.symm.trans hexec'
  obtain ⟨-, hpop, -⟩ := popReadsTheSlot t rd (hcfg ▸ hc)
  obtain ⟨u, hexecPop, hrd, hregs', hsp', -⟩ := hpop (popSlot_of_pushed hslot hcfg hsp)
  refine ⟨u, hexecPop, ?_, BitVec.eq_of_toNat_eq (by omega), fun q hq => (hregs' q hq).trans (hregs q)⟩
  rw [hrd, show t.sp.toNat = s.sp.toNat - 1 by omega, hword]

end Sys2Proof.Proofs

/-! SUPPORT and PROOFS, family 43_control_flow: what the jumps, CALL, RET and HALT complete with, the fault of the step
after a bad target, and what a step that halts or is rejected reports. -/

namespace Sys2Proof.Laws

open Sys2Proof.Machine

/-! ### Jumping -/

/-- A commit of a jump sets `pc` to the target, unchecked, and keeps the rest (R120). -/
theorem jumpsTo_of_commit {i : Instr} {s : State} {target : Word} (h : exec i s = commit (jumpTo target s)) :
    JumpsTo i s target :=
  ⟨_, h, rfl, fun _ => rfl, rfl, rfl, fun _ => rfl, rfl, rfl, rfl, rfl⟩

/-- A conditional jump goes to the target or to the next instruction (R120). -/
theorem jumpsTo_of_jumpIf {i : Instr} {s : State} {cond : Bool} {target : Word} {len : Nat}
    (h : exec i s = jumpIf cond target len s) :
    (cond = true → JumpsTo i s target) ∧ (cond = false → JumpsTo i s (s.pc + BitVec.ofNat 16 len)) := by
  constructor <;> rintro rfl
  · exact jumpsTo_of_commit h
  · exact jumpsTo_of_commit (h.trans (congrArg commit (advance_eq_jumpTo len rfl)))

/-- Both forms of a jump that is taken iff `flag` is 1. -/
theorem bothS_of_jumpIf {immForm : Word → Instr} {regForm : Reg → Instr} (flag : State → Bool)
    (himm : ∀ imm s, exec (immForm imm) s = jumpIf (flag s) imm 2 s)
    (hreg : ∀ rs s, exec (regForm rs) s = jumpIf (flag s) (s.regs.get rs) 1 s) :
    BothS immForm regForm fun i len target s =>
      (flag s = true → JumpsTo i s target) ∧ (flag s = false → JumpsTo i s (s.pc + BitVec.ofNat 16 len)) :=
  bothS_of_exec (fun len target s => jumpIf (flag s) target len s) himm hreg jumpsTo_of_jumpIf

/-- Both forms of a jump that is taken iff `flag` is 0. -/
theorem bothS_of_jumpIf_not {immForm : Word → Instr} {regForm : Reg → Instr} (flag : State → Bool)
    (himm : ∀ imm s, exec (immForm imm) s = jumpIf (!flag s) imm 2 s)
    (hreg : ∀ rs s, exec (regForm rs) s = jumpIf (!flag s) (s.regs.get rs) 1 s) :
    BothS immForm regForm fun i len target s =>
      (flag s = false → JumpsTo i s target) ∧ (flag s = true → JumpsTo i s (s.pc + BitVec.ofNat 16 len)) := by
  simpa using bothS_of_jumpIf (fun s => !flag s) himm hreg

/-! ### The step after a bad target -/

/-- A core that commits an instruction other than HALT may step again (R20). -/
theorem active_of_keepsControl {s t : State} (h : KeepsControl s t) (ha : s.Active) : t.Active := by
  obtain ⟨-, -, -, hrun⟩ := h
  exact .inr (hrun.trans (started_of_active ha))

/-- A step with `pc` outside memory faults in its fetch (R120, R146). -/
theorem step_of_pc_outside {s : State} (hc : s.cfg.wf = true) (ha : s.Active) (hpc : s.cfg.memWords ≤ s.pc.toNat) :
    step s = .next (faultedWith .memoryOutOfBounds s) :=
  step_of_decode_err hc ha (decodeWith_of_missing (fetchWord_of_le hpc))

/-- An instruction that commits with a bad `pc` leaves the fault to the next step (R120). -/
theorem next_step_faults {s t : State} (hc : s.cfg.wf = true) (hcontrol : KeepsControl s t) (ha : s.Active)
    (hpc : s.cfg.memWords ≤ t.pc.toNat) : step t = .next (faultedWith .memoryOutOfBounds t) := by
  have hactive := active_of_keepsControl hcontrol ha
  obtain ⟨hcfg, -⟩ := hcontrol
  rw [← hcfg] at hc hpc
  exact step_of_pc_outside hc hactive hpc

/-! ### What a step that halts or is rejected reports (R142) -/

theorem reportOf_of_halts {s t : State} (ha : s.Active) (ht : t.run = .halted) : reportOf s t = .halted := by
  rcases ha with h | h <;> simp [reportOf, h, ht]

theorem reportOf_of_terminal {s : State} (t : State) (h : s.run = .halted ∨ s.run = .faulted) :
    reportOf s t = .rejected := by
  rcases h with h | h <;> simp [reportOf, h]

end Sys2Proof.Laws

namespace Sys2Proof.Proofs

open Sys2Proof.Machine Sys2Proof.Laws

/-- Settles O33: both forms push the address of the next instruction and jump; `sp - 1` is a slot, or the push
faults. -/
theorem callPushesReturnAddress : Obligations.CallPushesReturnAddress := by
  refine ⟨encodesS_of_record .call (fun _ => rfl) (fun _ => rfl) rfl, ?_⟩
  refine bothS_of_exec (fun len target s => finish s ((push (nextPc len s) s).map (jumpTo target))) (fun _ _ => rfl)
    (fun _ _ => rfl) @fun i len target s h hwf => ⟨?_, fun hslot => ?_⟩
  · rw [← nextPc_eq_add]
    exact pushes_of_slot hwf h fun _ _ => rfl
  · exact h.trans (finish_push_of_not_slot _ _ hslot)

/-- Settles O34: `sp` is a slot, or the pop faults; the popped Word is not checked before the next fetch. -/
theorem retPopsIntoPc : Obligations.RetPopsIntoPc := by
  refine ⟨rfl, fun s hc => ⟨fun hslot => ?_, finish_pop_of_not_slot _⟩⟩
  exact ⟨_, finish_pop_of_slot _ hslot, rfl, popped_sp hc ((popSlot_iff s).1 hslot), fun _ => rfl, rfl, fun _ => rfl,
    ⟨rfl, rfl, rfl, rfl⟩, next_step_faults hc ⟨rfl, rfl, rfl, rfl⟩⟩

/-- Settles O35: the CALL leaves `sp` at the slot that holds the return address (O33), which is the slot the RET pops
(O34). -/
theorem retReturnsPastTheCall : Obligations.RetReturnsPastTheCall := by
  obtain ⟨-, hpushes⟩ := callPushesReturnAddress
  obtain ⟨-, hpops⟩ := retPopsIntoPc
  refine bothS_mono hpushes @fun i len target s hpush t hs hslot hexec => ?_
  obtain ⟨hc, hwf, -, -⟩ := hs
  obtain ⟨t', hexec', hsp, hword, -, hregs, hflags, -, hcfg, -⟩ := (hpush hwf).1 hslot
  cases hexec.symm.trans hexec'
  obtain ⟨hpop, -⟩ := hpops t (hcfg ▸ hc)
  obtain ⟨u, hexecRet, hpc, hsp', hregs', hflags', -⟩ := hpop (popSlot_of_pushed hslot hcfg hsp)
  refine ⟨u, hexecRet, ?_, BitVec.eq_of_toNat_eq (by omega), fun q => (hregs' q).trans (hregs q),
    hflags'.trans hflags⟩
  rw [hpc, show t.sp.toNat = s.sp.toNat - 1 by omega, hword]

/-- Settles O28: both forms commit the jump, and a target outside memory is met by the next fetch. -/
theorem jmpSetsPc : Obligations.JmpSetsPc := by
  refine ⟨encodesS_of_record .jmp (fun _ => rfl) (fun _ => rfl) rfl, ?_⟩
  refine bothS_of_exec (fun _ target s => commit (jumpTo target s)) (fun _ _ => rfl) (fun _ _ => rfl)
    @fun i len target s h => ⟨jumpsTo_of_commit h, fun hc ha hbad => ?_⟩
  exact ⟨_, h, rfl, next_step_faults hc ⟨rfl, rfl, rfl, rfl⟩ ha hbad⟩

/-- Settles O29: both jumps are `jumpIf`, on `Z` and on its negation. -/
theorem jzJnzTestZero : Obligations.JzJnzTestZero :=
  ⟨encodesS_of_record .jz (fun _ => rfl) (fun _ => rfl) rfl,
    encodesS_of_record .jnz (fun _ => rfl) (fun _ => rfl) rfl,
    bothS_of_jumpIf (·.flags.z) (fun _ _ => rfl) (fun _ _ => rfl),
    bothS_of_jumpIf_not (·.flags.z) (fun _ _ => rfl) (fun _ _ => rfl)⟩

/-- Settles O30: both jumps are `jumpIf`, on `C` and on its negation. -/
theorem jcJncTestCarry : Obligations.JcJncTestCarry :=
  ⟨encodesS_of_record .jc (fun _ => rfl) (fun _ => rfl) rfl,
    encodesS_of_record .jnc (fun _ => rfl) (fun _ => rfl) rfl,
    bothS_of_jumpIf (·.flags.c) (fun _ _ => rfl) (fun _ _ => rfl),
    bothS_of_jumpIf_not (·.flags.c) (fun _ _ => rfl) (fun _ _ => rfl)⟩

/-- Settles O31: both jumps are `jumpIf`, on `S` and on its negation. -/
theorem jsJnsTestSign : Obligations.JsJnsTestSign :=
  ⟨encodesS_of_record .js (fun _ => rfl) (fun _ => rfl) rfl,
    encodesS_of_record .jns (fun _ => rfl) (fun _ => rfl) rfl,
    bothS_of_jumpIf (·.flags.s) (fun _ _ => rfl) (fun _ _ => rfl),
    bothS_of_jumpIf_not (·.flags.s) (fun _ _ => rfl) (fun _ _ => rfl)⟩

/-- Settles O32: both jumps are `jumpIf`, on `V` and on its negation. -/
theorem joJnoTestOverflow : Obligations.JoJnoTestOverflow :=
  ⟨encodesS_of_record .jo (fun _ => rfl) (fun _ => rfl) rfl,
    encodesS_of_record .jno (fun _ => rfl) (fun _ => rfl) rfl,
    bothS_of_jumpIf (·.flags.v) (fun _ _ => rfl) (fun _ _ => rfl),
    bothS_of_jumpIf_not (·.flags.v) (fun _ _ => rfl) (fun _ _ => rfl)⟩

/-- Settles O36: HALT's commit is the one that enters Halted, from which every step is rejected. -/
theorem haltAdvancesAndHalts : Obligations.HaltAdvancesAndHalts := by
  refine ⟨rfl, fun s => ?_, fun s n hc ha hdecode => ?_, fun s hc hrun => ?_⟩
  · exact ⟨_, rfl, nextPc_eq_add 1 s, rfl, fun _ => rfl, rfl, rfl, fun _ => rfl, rfl, rfl, rfl⟩
  · rw [stepReport_of_step (step_of_decode hc ha hdecode), reportOf_of_halts ha rfl]
  · have hstep := step_of_terminal hc (.inl hrun)
    exact ⟨hstep, by rw [stepReport_of_step hstep, reportOf_of_terminal s (.inl hrun)]⟩

end Sys2Proof.Proofs

/-! SUPPORT and PROOFS, family 60_exceptions: how a step of an active core ends and what it reports, the order in which
its faults are detected, that Ready steps like Running, and what Inspect shows. -/

namespace Sys2Proof.Laws

open Sys2Proof.Machine

/-! ### How a step of an active core ends, and its report (R142, R150) -/

/-- A core that may step ends in Running, in Halted, or in the fault entry of R150; never in Ready (R141). -/
theorem step_active_ends {s : State} (hc : s.cfg.wf = true) (ha : s.Active) :
    ∃ t, step s = .next t ∧ (t.run = .running ∨ t.run = .halted ∨ ∃ f, t = faultedWith f s) := by
  rw [step_of_active hc ha]
  rcases fetchExecute_cases s with ⟨e, -, hnext⟩ | ⟨i, n, t, -, hnext, -, heff⟩
  · exact ⟨_, hnext, .inr (.inr ⟨_, rfl⟩)⟩
  · refine ⟨t, hnext, ?_⟩
    rcases effect_control heff with ⟨-, -, -, -, hrun⟩ | ⟨-, rfl⟩ | hfault
    · exact .inl (hrun.trans (started_of_active ha))
    · exact .inr (.inl rfl)
    · exact .inr (.inr hfault)

theorem reportOf_of_runs {s t : State} (ha : s.Active) (ht : t.run = .running) : reportOf s t = .ok := by
  rcases ha with h | h <;> simp [reportOf, h, ht]

theorem reportOf_faultedWith {s : State} (ha : s.Active) (f : FaultCause) :
    reportOf s (faultedWith f s) = .fault f := by
  rcases ha with h | h <;> simp [reportOf, h, faultedWith]

/-- A core in Halted or Faulted rejects the step and keeps its state (R142, R150). -/
theorem step_rejected {s : State} (hc : s.cfg.wf = true) (h : s.run = .halted ∨ s.run = .faulted) :
    step s = .next s ∧ stepReport s = some .rejected := by
  have hstep := step_of_terminal hc h
  exact ⟨hstep, by rw [stepReport_of_step hstep, reportOf_of_terminal s h]⟩

/-! ### The order of fault detection (R152) -/

theorem decodeAtPc_outcome {s : State} (hpc : s.pc.toNat < s.cfg.memWords) :
    DecodeOutcome (fetchWord s) s.pc.toNat (s.mem.readWord s.pc.toNat) (decodeAtPc s) :=
  decodeWith_outcome (fetchWord_of_lt hpc)

/-- A reserved opcode is found whatever the rest of the Word, and before any trailing fetch (R64, R144). -/
theorem decodeAtPc_of_reserved {s : State} (hpc : s.pc.toNat < s.cfg.memWords)
    (hop : Op.ofField (opcodeField (s.mem.readWord s.pc.toNat)) = none) : decodeAtPc s = .err .illegalOpcode := by
  have hout := decodeAtPc_outcome hpc
  generalize decodeAtPc s = result at hout ⊢
  cases hout with
  | reserved _ => rfl
  | noForm hdefined _ => exact absurd hop hdefined
  | cutOff i hhead _ _ | ok i hhead _ => simp [op_of_head hhead] at hop

/-- A first Word of no instruction is found before any trailing fetch (R65, R145). -/
theorem decodeAtPc_of_noForm {s : State} (hpc : s.pc.toNat < s.cfg.memWords)
    (hop : Op.ofField (opcodeField (s.mem.readWord s.pc.toNat)) ≠ none)
    (hno : ¬ ∃ i : Instr, (encode i).head? = some (s.mem.readWord s.pc.toNat)) :
    decodeAtPc s = .err .illegalOperand := by
  have hout := decodeAtPc_outcome hpc
  generalize decodeAtPc s = result at hout ⊢
  cases hout with
  | reserved hreserved => exact absurd hreserved hop
  | noForm _ _ => rfl
  | cutOff i hhead _ _ | ok i hhead _ => exact absurd ⟨i, hhead⟩ hno

/-- The Words of an instruction at `pc`, all inside memory, decode to it (R63). -/
theorem decodeAtPc_of_words {s : State} {i : Instr} (hhead : (encode i).head? = some (s.mem.readWord s.pc.toNat))
    (hend : s.pc.toNat + (encode i).length ≤ s.cfg.memWords)
    (htrailing : ∀ e, (encode i)[1]? = some e → s.mem.readWord (s.pc.toNat + 1) = e) :
    decodeAtPc s = .ok i (encode i).length := by
  rw [encode_eq] at hend htrailing
  refine decodeWith_of_holdsWords (holdsWords_encode_iff.2 ⟨?_, fun hext => ?_⟩)
  · rw [hhead]
    exact fetchWord_of_lt (by rw [List.length_cons] at hend; omega)
  · obtain ⟨e, he⟩ := Option.isSome_iff_exists.1 hext
    simp only [he, Option.toList_some, List.length_cons] at hend htrailing
    rw [he, fetchWord_of_lt (by omega), htrailing e rfl]

/-- A cause that an instruction newly latches is that of its fault, and so one that its opcode can raise (R152). -/
theorem effect_cause {i : Instr} {s t : State} {f : FaultCause} (h : Effect i s t) (hnone : s.cause = none)
    (hcause : t.cause = some f) :
    (f = .divisionByZero ∧ i.record.op ∈ [.div, .mod]) ∨ (f = .memoryOutOfBounds ∧ i.record.op ∈ [.ld, .st]) ∨
      (f = .stackOverflow ∧ i.record.op ∈ [.push, .call]) ∨ (f = .stackUnderflow ∧ i.record.op ∈ [.pop, .ret]) := by
  cases h with
  | fault g hop =>
    obtain rfl : g = f := Option.some.inj hcause
    exact hop
  | alu | cmp | reg | store | push | pop | ret | ssp | jump | halt => simp [hnone] at hcause

/-! ### Ready and Running (R141)

Both cores read alike, and `commit`, `commitHalt` and `raise` all leave one run state whichever of the two it was. -/

section ReadyRunning

variable (s : State)

/-- What is attempted alike in both, and commits alike, finishes alike; a fault entry overwrites the run state. -/
theorem finish_ready_eq_running {α : Type} (r : Except FaultCause α) (g g' : α → State)
    (h : ∀ a, commit (g a) = commit (g' a)) :
    finish { s with run := .ready } (r.map g) = finish { s with run := .running } (r.map g') := by
  cases r with
  | error f => rfl
  | ok a => exact h a

theorem storeReg_ready_eq_running (rs : Reg) (len ea : Nat) :
    storeReg rs len ea { s with run := .ready } = storeReg rs len ea { s with run := .running } := by
  rcases lt_or_ge ea s.cfg.memWords with h | h
  · exact (storeReg_of_lt (s := { s with run := .ready }) h).trans
      (storeReg_of_lt (s := { s with run := .running }) h).symm
  · exact (storeReg_of_le (s := { s with run := .ready }) h).trans
      (storeReg_of_le (s := { s with run := .running }) h).symm

theorem jumpIf_ready_eq_running (cond : Bool) (target : Word) (len : Nat) :
    jumpIf cond target len { s with run := .ready } = jumpIf cond target len { s with run := .running } :=
  (jumpIf_eq cond target len { s with run := .ready }).trans (jumpIf_eq cond target len { s with run := .running }).symm

theorem finish_push_ready_eq_running (v : Word) (g : State → State)
    (h : ∀ u : State, commit (g { u with run := .ready }) = commit (g { u with run := .running })) :
    finish { s with run := .ready } ((push v { s with run := .ready }).map g) =
      finish { s with run := .running } ((push v { s with run := .running }).map g) := by
  by_cases hslot : PushSlot s
  · rw [pushSlot_iff] at hslot
    rw [push_of_slot (s := { s with run := .ready }) hslot, push_of_slot (s := { s with run := .running }) hslot]
    exact h { s with mem := _, sp := _ }
  · exact (finish_push_of_not_slot (s := { s with run := .ready }) v g hslot).trans
      (finish_push_of_not_slot (s := { s with run := .running }) v g hslot).symm

theorem finish_pop_ready_eq_running (g : Word × State → State)
    (h : ∀ v, ∀ u : State, commit (g (v, { u with run := .ready })) = commit (g (v, { u with run := .running }))) :
    finish { s with run := .ready } ((pop { s with run := .ready }).map g) =
      finish { s with run := .running } ((pop { s with run := .running }).map g) := by
  by_cases hslot : PopSlot s
  · rw [finish_pop_of_slot (s := { s with run := .ready }) g hslot,
      finish_pop_of_slot (s := { s with run := .running }) g hslot]
    exact h _ { s with sp := _ }
  · exact (finish_pop_of_not_slot (s := { s with run := .ready }) g hslot).trans
      (finish_pop_of_not_slot (s := { s with run := .running }) g hslot).symm

theorem exec_ready_eq_running (i : Instr) : exec i { s with run := .ready } = exec i { s with run := .running } := by
  cases i
  case divImm | divReg | modImm | modReg | ldInd | ldDir | ldSp =>
    exact finish_ready_eq_running s _ _ _ fun _ => rfl
  case stInd | stDir | stSp => exact storeReg_ready_eq_running s _ _ _
  case pushImm | pushReg | callImm | callReg => exact finish_push_ready_eq_running s _ _ fun _ => rfl
  case pop | ret => exact finish_pop_ready_eq_running s _ fun _ _ => rfl
  case jzImm | jzReg | jnzImm | jnzReg | jcImm | jcReg | jncImm | jncReg | jsImm | jsReg | jnsImm | jnsReg | joImm |
      joReg | jnoImm | jnoReg =>
    exact jumpIf_ready_eq_running s _ _ _
  all_goals rfl

theorem fetchExecute_ready_eq_running :
    fetchExecute { s with run := .ready } = fetchExecute { s with run := .running } := by
  have hdecode : decodeAtPc { s with run := .ready } = decodeAtPc { s with run := .running } := rfl
  rw [fetchExecute, fetchExecute, hdecode]
  cases decodeAtPc { s with run := .running } with
  | err e => rfl
  | ok i n => exact exec_ready_eq_running s i

end ReadyRunning

/-! ### What Inspect shows (R161) -/

/-- Inspect sees the Words that a fetch can read. -/
theorem inspectWord_eq_fetchWord (s : State) (a : Nat) : inspectWord s a = fetchWord s a := rfl

theorem inspect_faultedWith (f : FaultCause) (s : State) :
    inspect (faultedWith f s) = { inspect s with run := .faulted, cause := some f } := rfl

end Sys2Proof.Laws

namespace Sys2Proof.Proofs

open Sys2Proof.Machine Sys2Proof.Laws

/-- Settles O42: of the ends of an active step, only the fault entry is in Faulted. -/
theorem faultEntryChangesOnlyRunAndCause : Obligations.FaultEntryChangesOnlyRunAndCause := by
  intro s t hc ha hstep hrun
  obtain ⟨t', hstep', hends⟩ := step_active_ends hc ha
  cases hstep.symm.trans hstep'
  rcases hends with hrunning | hhalted | ⟨f, rfl⟩
  · simp [hrun] at hrunning
  · simp [hrun] at hhalted
  · obtain ⟨hkept, hrejected⟩ := step_rejected (s := faultedWith f s) hc (.inr rfl)
    exact ⟨f, rfl, by rw [stepReport_of_step hstep, reportOf_faultedWith ha], hkept, hrejected, rfl⟩

/-- Settles O44: each clause by what decode answers at `pc`; the last by the faults each opcode can raise. -/
theorem faultPriorityOfAStep : Obligations.FaultPriorityOfAStep := by
  refine ⟨fun s hc ha => ⟨step_of_pc_outside hc ha, ?_⟩, fun i s t f hnone h => effect_cause (effect_of_exec h) hnone⟩
  rintro hpc w rfl
  refine ⟨fun hreserved => ?_, fun hlow hhigh hno => ?_, fun i => step_of_trailing_outside hc ha hpc,
    fun i hhead hend htrailing => ?_⟩
  · exact step_of_decode_err hc ha (decodeAtPc_of_reserved hpc ((op_eq_none_iff _).2 hreserved))
  · refine step_of_decode_err hc ha (decodeAtPc_of_noForm hpc ?_ hno)
    rw [Ne, op_eq_none_iff]
    omega
  · exact step_of_decode hc ha (decodeAtPc_of_words hhead hend htrailing)

/-- Settles O45: Ready and Running fetch and execute alike, and an active step ends in none but the three. -/
theorem readyStepsLikeRunning : Obligations.ReadyStepsLikeRunning := by
  intro s hc
  refine ⟨?_, ?_⟩
  · rw [step_of_active (s := { s with run := .ready }) hc (.inl rfl),
      step_of_active (s := { s with run := .running }) hc (.inr rfl), fetchExecute_ready_eq_running]
  · obtain ⟨t, hstep, hrunning | hhalted | ⟨f, rfl⟩⟩ := step_active_ends (s := { s with run := .ready }) hc (.inl rfl)
    · exact ⟨t, hstep, .inl hrunning⟩
    · exact ⟨t, hstep, .inr (.inl hhalted)⟩
    · exact ⟨_, hstep, .inr (.inr rfl)⟩

/-- Settles O47: each end of an active step has a report of its own. -/
theorem stepReportsItsOutcome : Obligations.StepReportsItsOutcome := by
  refine fun s hc => ⟨step_rejected hc, fun ha => ?_⟩
  obtain ⟨t, hstep, hends⟩ := step_active_ends hc ha
  refine ⟨t, hstep, ?_⟩
  rw [stepReport_of_step hstep]
  rcases hends with hrunning | hhalted | ⟨f, rfl⟩
  · simp [reportOf_of_runs ha hrunning, hrunning]
  · simp [reportOf_of_halts ha hhalted, hhalted]
  · rw [reportOf_faultedWith ha]
    simp [faultedWith]

/-- Settles O43: the step runs what decode answers at `pc`. -/
theorem stepRunsTheDecodedInstruction : Obligations.StepRunsTheDecodedInstruction := fun _ _ _ => step_of_decode

/-- Settles O55: Inspect copies the fields, and sees the Words that a fetch can read. -/
theorem inspectShowsTheState : Obligations.InspectShowsTheState := by
  refine fun s => ⟨fun r => (State.reg_eq s r).symm, rfl, rfl, rfl, rfl, rfl, rfl, fun a => ?_,
    fun f => inspect_faultedWith f s⟩
  rw [inspectWord_eq_fetchWord]
  exact ⟨fetchWord_of_lt, fetchWord_of_le⟩

end Sys2Proof.Proofs

/-! SUPPORT and PROOFS, family 70_reset_and_hazards: runs of many steps, which images Load accepts, and the first step
of a core whose memory is blank. -/

namespace Sys2Proof.Laws

open Sys2Proof.Machine

/-! ### Runs of many steps (R155, R176) -/

/-- A legal `Config` is never refused, and no step changes it (R23). -/
theorem step_next {s : State} (hc : s.cfg.wf = true) : ∃ t, step s = .next t ∧ t.cfg = s.cfg := by
  rcases active_or_terminal s with ha | hterm
  · rw [step_of_active hc ha]
    rcases fetchExecute_cases s with ⟨e, -, hnext⟩ | ⟨i, n, t, -, hnext, -, heff⟩
    · exact ⟨_, hnext, rfl⟩
    · exact ⟨t, hnext, (effect_keeps_cfg_entry heff).1⟩
  · exact ⟨s, step_of_terminal hc hterm, rfl⟩

theorem run_of_fixed {s : State} (k : Nat) (h : step s = .next s) : Sys2Proof.core.run k s = .next s := by
  induction k with
  | zero => rfl
  | succ k ih => exact (core_run_succ Sys2Proof.core k s s h).trans ih

theorem run_next {s : State} (k : Nat) (hc : s.cfg.wf = true) :
    ∃ t : State, Sys2Proof.core.run k s = .next t ∧ t.cfg = s.cfg := by
  induction k generalizing s with
  | zero => exact ⟨s, rfl, rfl⟩
  | succ k ih =>
    obtain ⟨u, hstep, hu⟩ := step_next hc
    obtain ⟨t, hrun, ht⟩ := ih (hu ▸ hc)
    exact ⟨t, (core_run_succ Sys2Proof.core k s u hstep).trans hrun, ht.trans hu⟩

/-! ### Which images Load accepts, and the state it leaves (R173) -/

theorem loadImage_of_accepted {s : State} {version entryPoint count : Word} {code : List Word}
    (hversion : version = s.cfg.formatVersion) (hlength : code.length = count.toNat)
    (hcount : count.toNat ≤ s.cfg.memWords) :
    loadImage s (version :: entryPoint :: count :: code) =
      .ok (resetCore { s with mem := Memory.ofWords 0 code, entry := entryPoint }) := by
  rw [loadImage, if_neg (not_not.2 hversion), if_neg (not_not.2 hlength), if_neg (not_lt.2 hcount)]

/-- An image that none of the header's checks admits is rejected: a successful Load passes them all. -/
theorem loadImage_of_not_accepted {s : State} {image : List Word}
    (h : ¬ ∃ version entryPoint count code, image = version :: entryPoint :: count :: code ∧
      version = s.cfg.formatVersion ∧ code.length = count.toNat ∧ count.toNat ≤ s.cfg.memWords) :
    loadImage s image = .imageFormatError := by
  cases hload : loadImage s image with
  | imageFormatError => rfl
  | ok t =>
    obtain ⟨version, entryPoint, count, code, himage, hversion, hlength, hcount, -⟩ := loadImage_ok hload
    exact absurd ⟨version, entryPoint, count, code, himage, hversion, hlength, hcount⟩ h

/-! ### The first step in blank memory (R173) -/

/-- 0x0000 has the reserved opcode 0, so a blank Word at `pc` faults, as does a `pc` outside memory. -/
theorem step_of_blank {s : State} (hc : s.cfg.wf = true) (ha : s.Active)
    (hblank : s.mem.readWord s.pc.toNat = 0) :
    step s = .next (faultedWith
      (if s.cfg.memWords ≤ s.pc.toNat then .memoryOutOfBounds else .illegalOpcode) s) := by
  split_ifs with hpc
  · exact step_of_pc_outside hc ha hpc
  · refine step_of_decode_err hc ha (decodeAtPc_of_reserved (not_le.1 hpc) ?_)
    rw [hblank, op_eq_none_iff]
    exact .inl (by decide)

end Sys2Proof.Laws

namespace Sys2Proof.Proofs

open Sys2Proof.Machine Sys2Proof.Laws

/-- Settles O48: a terminal state is a fixed point of the step, and a legal Config always has a next state; both by
induction on the number of steps. -/
theorem terminalStatesAreStable : Obligations.TerminalStatesAreStable :=
  ⟨fun k _ hc hterm => run_of_fixed k (step_of_terminal hc hterm), fun k _ hc => run_next k hc⟩

/-- Settles O54: an accepted image is placed by `Memory.ofWords` and reset; of no Words, it leaves memory blank. -/
theorem loadPlacesTheImage : Obligations.LoadPlacesTheImage := by
  refine fun s image => ⟨loadImage_of_not_accepted, ?_⟩
  rintro version entryPoint count code rfl hversion hlength hcount
  have hwords (a : Nat) : (Memory.ofWords 0 code).readWord a = code.getD a 0 := by
    simpa using Memory.readWord_ofWords 0 a code
  refine ⟨_, loadImage_of_accepted hversion hlength hcount, hwords, rfl, rfl, RegFile.get_zero, rfl, rfl, rfl, rfl, rfl,
    fun hc hempty => ?_⟩
  subst hempty
  exact step_of_blank hc (.inl rfl) (hwords _)

/-- Settles O51: the empty image is accepted under CFG_REF, and leaves memory blank. -/
theorem resetStateIsALoadedMachine : Obligations.ResetStateIsALoadedMachine := by
  have hbuilt : construct Config.ref [1, 0, 0] = some State.reset := by decide
  have hinv : State.reset.Inv := (inv_construct hbuilt).1
  exact ⟨hbuilt, hinv, step_of_blank hinv.1 (.inl rfl) (Memory.readWord_nil _)⟩

/-- Settles O53: field by field. -/
theorem resetZeroesAndRestoresPc : Obligations.ResetZeroesAndRestoresPc := fun _ =>
  ⟨RegFile.get_zero, rfl, rfl, rfl, rfl, rfl, rfl, rfl, rfl, rfl, rfl, rfl⟩

end Sys2Proof.Proofs

/-! SUPPORT and PROOFS, family other: Words given by their encoding decode to the instruction encoded. -/

namespace Sys2Proof.Laws

open Sys2Proof.Machine

/-- The round trip of R68 at the head of a sequence that is an encoding and nothing else. -/
theorem decode_of_encode_eq {i : Instr} {ws : List Word} (h : encode i = ws) : decode ws 0 = .ok i ws.length := by
  subst h
  exact Proofs.decodeInvertsEncode i (encode i) 0 fun k _ => by rw [Nat.zero_add]

end Sys2Proof.Laws

namespace Sys2Proof.Proofs

open Sys2Proof.Laws

/-- Settles O8: each of the worked encodings is what `encode` gives for its instruction, so the round trip of R68 reads
it back. -/
theorem writtenOutWordsDecode : Obligations.WrittenOutWordsDecode := by
  and_intros <;> exact decode_of_encode_eq (by decide)

end Sys2Proof.Proofs
